-- ==== Sys2Proof/Word.lean ====
section
/-! DEFINITION. The widths of the CHIP-8 core (spec/00_scope.md R9): what the spec treats as bits is a
bit vector. The widths and counts that R7 names as parameters are in Config.lean. -/

namespace Sys2Proof

/-- 8 bits: a general register, a memory byte, the immediate nn (R20, R37, R73). -/
abbrev Byte := BitVec 8

/-- 16 bits: an instruction word, a return address, a value for pc or I (R30, R70). -/
abbrev Word := BitVec 16

/-- 12 bits: the address immediate nnn (R71). -/
abbrev Addr12 := BitVec 12

/-- 4 bits: the sprite height n and the sub-opcode fields (R71). -/
abbrev Nibble := BitVec 4

end Sys2Proof
end

