-- ==== Sys2Proof/Config.lean ====
section
/-! DEFINITION. The named parameters of the hardware (spec/00_scope.md R7; `FONT` itself is `defaultFont` of Machine/Ops.lean), the
index types made from them, and the free values: which transactions the host makes, with what inputs, where none is pending. A free
value is `opaque`, so nothing can be proved of it. -/

namespace Sys2Proof

namespace Config

/-- `MEM_SIZE`: addresses 0x000 to 0xFFF (R7, R37). -/
abbrev memSize : Nat := 4096

/-- `NUM_V`: V0 to VF (R7, R20). -/
abbrev numV : Nat := 16

/-- `NUM_KEYS`: the keys of the hex pad (R7, R36). -/
abbrev numKeys : Nat := 16

/-- `I_WIDTH` (R7, R29). -/
abbrev iWidth : Nat := 16

/-- `PC_WIDTH` (R7, R25). -/
abbrev pcWidth : Nat := 16

/-- `TIMER_WIDTH`: both timers (R7, R35). -/
abbrev timerWidth : Nat := 8

/-- `TIMER_RATE`: ticks a second, set by the host; no rule computes with it (R7, R245). -/
abbrev timerRate : Nat := 60

/-- `PROG_BASE`: where `construct` puts the program (R7, R51). -/
abbrev progBase : Nat := 0x200

/-- `MAX_PROGRAM` = 4096 - 0x200 = 3584 bytes (R7, R261). -/
abbrev maxProgram : Nat := memSize - progBase

/-- `PC_RESET` (R7, R26). -/
abbrev pcReset : BitVec pcWidth := 0x200#16

/-- `STACK_DEPTH`: 12 entries, the stack pointer in [0, 12] (R7, R30; the spec's parameter D29). -/
abbrev stackDepth : Nat := 12

/-- `FLAG_REG`: VF (R7, R21). -/
abbrev flagReg : Fin numV := 15

/-- `FONT_BASE` (R7). -/
abbrev fontBase : Nat := 0x000

/-- `FONT_GLYPH_BYTES` (R7). -/
abbrev fontGlyphBytes : Nat := 5

/-- `FONT_SIZE`: 80 bytes, 0x000 to 0x04F (R7, R56). -/
abbrev fontSize : Nat := 80

/-- `SCREEN_W` (R7, R38). -/
abbrev screenW : Nat := 64

/-- `SCREEN_H` (R7, R38). -/
abbrev screenH : Nat := 32

/-- `SPRITE_W`: pixels in one sprite row (R7, R194). -/
abbrev spriteW : Nat := 8

/-- `SOUND_THRESHOLD` (R7, R246; the spec's decision D22). -/
abbrev soundThreshold : Nat := 2

end Config

/-- A register index: 4-bit fields, so every index is in 0..15 (R23). -/
abbrev Reg := Fin Config.numV

/-- A key index (R36). -/
abbrev Key := Fin Config.numKeys

/-- The keys of the hex pad, true = down (R36). -/
abbrev Keys := Vector Bool Config.numKeys

namespace Config

/-- FREE VALUE: how many ticks the host makes before the k-th cycle that no pending transaction names (R245: a tick "may
run at any point between cycles"; the ratio is the host's, D26). DESIGN CHOICE, log entry 1; safe. -/
opaque freeTicks : Nat → Nat

/-- FREE VALUE: the `current_keys` of the k-th cycle that the host makes without the model naming its inputs
(R36: the keys are the host's). DESIGN CHOICE, log entry 2; safe. -/
opaque freeCurrentKeys : Nat → Keys

/-- FREE VALUE: the `previous_keys` of that cycle (R36, R264: the core cannot tell whether the host keeps its
duty). DESIGN CHOICE, log entry 2; safe. -/
opaque freePreviousKeys : Nat → Keys

/-- FREE VALUE: the draw `rnd` of that cycle, "a free draw under no law, taken fresh by each cycle" (R34, R153).
DESIGN CHOICE, log entry 2; safe. -/
opaque freeRnd : Nat → Byte

end Config

end Sys2Proof
end

