-- ==== Sys2Proof/Syntax.lean ====
section
/-! DEFINITION. The closed set of 35 instructions (spec/30_encoding.md R72, R76), one constructor per row of
spec/opcode_table.json, each carrying only the operand fields its row names. -/

namespace Sys2Proof

/-- The 35 tagged variants, in the order and under the names of R76. -/
inductive Instr where
  /-- `00E0` CLS -/
  | clear
  /-- `00EE` RET (the variant `Return`) -/
  | ret
  /-- `0NNN` SYS nnn -/
  | machineSubroutine (nnn : Addr12)
  /-- `1NNN` JP nnn -/
  | jump (nnn : Addr12)
  /-- `2NNN` CALL nnn -/
  | call (nnn : Addr12)
  /-- `3XNN` SE Vx, nn -/
  | skipEqualImmediate (x : Reg) (nn : Byte)
  /-- `4XNN` SNE Vx, nn -/
  | skipNotEqualImmediate (x : Reg) (nn : Byte)
  /-- `5XY0` SE Vx, Vy -/
  | skipEqualRegister (x y : Reg)
  /-- `6XNN` LD Vx, nn -/
  | loadImmediate (x : Reg) (nn : Byte)
  /-- `7XNN` ADD Vx, nn -/
  | addImmediate (x : Reg) (nn : Byte)
  /-- `8XY0` LD Vx, Vy -/
  | loadRegister (x y : Reg)
  /-- `8XY1` OR Vx, Vy -/
  | or (x y : Reg)
  /-- `8XY2` AND Vx, Vy -/
  | and (x y : Reg)
  /-- `8XY3` XOR Vx, Vy -/
  | xor (x y : Reg)
  /-- `8XY4` ADD Vx, Vy -/
  | addRegister (x y : Reg)
  /-- `8XY5` SUB Vx, Vy -/
  | subRegisterXY (x y : Reg)
  /-- `8XY6` SHR Vx, Vy -/
  | shiftRight (x y : Reg)
  /-- `8XY7` SUBN Vx, Vy -/
  | subRegisterYX (x y : Reg)
  /-- `8XYE` SHL Vx, Vy -/
  | shiftLeft (x y : Reg)
  /-- `9XY0` SNE Vx, Vy -/
  | skipNotEqualRegister (x y : Reg)
  /-- `ANNN` LD I, nnn -/
  | loadIndex (nnn : Addr12)
  /-- `BNNN` JP V0, nnn -/
  | jumpAdd (nnn : Addr12)
  /-- `CXNN` RND Vx, nn -/
  | loadRandom (x : Reg) (nn : Byte)
  /-- `DXYN` DRW Vx, Vy, n -/
  | draw (x y : Reg) (n : Nibble)
  /-- `EX9E` SKP Vx -/
  | skipKeyPressed (x : Reg)
  /-- `EXA1` SKNP Vx -/
  | skipKeyNotPressed (x : Reg)
  /-- `FX07` LD Vx, DT -/
  | loadDelay (x : Reg)
  /-- `FX0A` LD Vx, K -/
  | waitForKey (x : Reg)
  /-- `FX15` LD DT, Vx -/
  | setDelay (x : Reg)
  /-- `FX18` LD ST, Vx -/
  | setSound (x : Reg)
  /-- `FX1E` ADD I, Vx -/
  | addIndex (x : Reg)
  /-- `FX29` LD F, Vx -/
  | loadFont (x : Reg)
  /-- `FX33` LD B, Vx -/
  | storeBCD (x : Reg)
  /-- `FX55` LD [I], Vx -/
  | storeRegisters (x : Reg)
  /-- `FX65` LD Vx, [I] -/
  | loadRegisters (x : Reg)
  deriving DecidableEq, Repr

end Sys2Proof
end

