-- ==== Sys2Proof/WellFormed.lean ====
section
/-! DEFINITION. Which terms of `Instr` stand for an instruction of the machine. Every operand's range is in its
type already (R23, R73); what is left to check is that the words 00E0 and 00EE belong to `clear` and `ret`
and to no machine-subroutine call (spec/30_encoding.md R75, R78). -/

namespace Sys2Proof

/-- The operand is no word that `clear` (0x0E0) or `ret` (0x0EE) owns; every other term is well formed. -/
def Instr.wellFormed : Instr → Bool
  | .machineSubroutine nnn => nnn != 0x0E0#12 && nnn != 0x0EE#12
  | .clear | .ret | .jump _ | .call _ => true
  | .skipEqualImmediate _ _ | .skipNotEqualImmediate _ _ | .skipEqualRegister _ _ => true
  | .loadImmediate _ _ | .addImmediate _ _ | .loadRegister _ _ => true
  | .or _ _ | .and _ _ | .xor _ _ => true
  | .addRegister _ _ | .subRegisterXY _ _ | .shiftRight _ _ | .subRegisterYX _ _ | .shiftLeft _ _ => true
  | .skipNotEqualRegister _ _ | .loadIndex _ | .jumpAdd _ | .loadRandom _ _ | .draw _ _ _ => true
  | .skipKeyPressed _ | .skipKeyNotPressed _ | .loadDelay _ | .waitForKey _ => true
  | .setDelay _ | .setSound _ | .addIndex _ | .loadFont _ => true
  | .storeBCD _ | .storeRegisters _ | .loadRegisters _ => true

end Sys2Proof
end

