-- ==== Sys2Proof/Decode.lean ====
section
/-! DEFINITION. The decoder (spec/30_encoding.md R71, R74, R75), total on any bytes and rejecting by name, and
after it the encoder, written from the opcode map (R76) on its own. -/

namespace Sys2Proof

/-- Why bytes are no instruction. -/
inductive DecodeError where
  /-- One of the illegal words of R77, carried whole. -/
  | unknownInstruction (word : Word)
  /-- Fewer than two bytes: no 16-bit word to decode (R70). The machine never meets it: its fetch takes two. -/
  | truncated
  deriving DecidableEq, Repr

/-! The fields every word is split into (R71). -/

/-- `op = w[15:12]`. -/
def opField (w : Word) : Nibble := w.extractLsb' 12 4

/-- `x = w[11:8]`, a register index. -/
def xField (w : Word) : Reg := (w.extractLsb' 8 4 : Nibble).toFin

/-- `y = w[7:4]`, a register index. -/
def yField (w : Word) : Reg := (w.extractLsb' 4 4 : Nibble).toFin

/-- `n = w[3:0]`. -/
def nField (w : Word) : Nibble := w.extractLsb' 0 4

/-- `nn = w[7:0]`. -/
def nnField (w : Word) : Byte := w.extractLsb' 0 8

/-- `nnn = w[11:0]`. -/
def nnnField (w : Word) : Addr12 := w.extractLsb' 0 12

/-- Family 0: 00E0 and 00EE are matched as whole words, every other word is a machine-subroutine call (R75, R78). -/
def decodeFamily0 (w : Word) : Instr :=
  if w = 0x00E0#16 then .clear
  else if w = 0x00EE#16 then .ret
  else .machineSubroutine (nnnField w)

/-- Family 8: the low nibble selects (R75). -/
def decodeFamily8 (w : Word) : Except DecodeError Instr :=
  match (nField w).toNat with
  | 0x0 => .ok (.loadRegister (xField w) (yField w))
  | 0x1 => .ok (.or (xField w) (yField w))
  | 0x2 => .ok (.and (xField w) (yField w))
  | 0x3 => .ok (.xor (xField w) (yField w))
  | 0x4 => .ok (.addRegister (xField w) (yField w))
  | 0x5 => .ok (.subRegisterXY (xField w) (yField w))
  | 0x6 => .ok (.shiftRight (xField w) (yField w))
  | 0x7 => .ok (.subRegisterYX (xField w) (yField w))
  | 0xE => .ok (.shiftLeft (xField w) (yField w))
  | _ => .error (.unknownInstruction w)

/-- Family E: the low byte selects (R75). -/
def decodeFamilyE (w : Word) : Except DecodeError Instr :=
  match (nnField w).toNat with
  | 0x9E => .ok (.skipKeyPressed (xField w))
  | 0xA1 => .ok (.skipKeyNotPressed (xField w))
  | _ => .error (.unknownInstruction w)

/-- Family F: the low byte selects (R75). -/
def decodeFamilyF (w : Word) : Except DecodeError Instr :=
  match (nnField w).toNat with
  | 0x07 => .ok (.loadDelay (xField w))
  | 0x0A => .ok (.waitForKey (xField w))
  | 0x15 => .ok (.setDelay (xField w))
  | 0x18 => .ok (.setSound (xField w))
  | 0x1E => .ok (.addIndex (xField w))
  | 0x29 => .ok (.loadFont (xField w))
  | 0x33 => .ok (.storeBCD (xField w))
  | 0x55 => .ok (.storeRegisters (xField w))
  | 0x65 => .ok (.loadRegisters (xField w))
  | _ => .error (.unknownInstruction w)

/-- The decoder, a pure function of the word: it dispatches on the high nibble, and for 0, 8, E and F further on
the low byte or the low nibble (R74, R75). The opcode values of rows 4 to 35 are PRESUMED (the spec marks them
general knowledge, G1): log entry 6; unsafe. -/
def decode (w : Word) : Except DecodeError Instr :=
  match (opField w).toNat with
  | 0x0 => .ok (decodeFamily0 w)
  | 0x1 => .ok (.jump (nnnField w))
  | 0x2 => .ok (.call (nnnField w))
  | 0x3 => .ok (.skipEqualImmediate (xField w) (nnField w))
  | 0x4 => .ok (.skipNotEqualImmediate (xField w) (nnField w))
  | 0x5 => if nField w = 0#4 then .ok (.skipEqualRegister (xField w) (yField w)) else .error (.unknownInstruction w)
  | 0x6 => .ok (.loadImmediate (xField w) (nnField w))
  | 0x7 => .ok (.addImmediate (xField w) (nnField w))
  | 0x8 => decodeFamily8 w
  | 0x9 => if nField w = 0#4 then .ok (.skipNotEqualRegister (xField w) (yField w)) else .error (.unknownInstruction w)
  | 0xA => .ok (.loadIndex (nnnField w))
  | 0xB => .ok (.jumpAdd (nnnField w))
  | 0xC => .ok (.loadRandom (xField w) (nnField w))
  | 0xD => .ok (.draw (xField w) (yField w) (nField w))
  | 0xE => decodeFamilyE w
  | _ => decodeFamilyF w

/-- The big-endian word of two bytes, the first at the lower address (spec/20_memory.md R57). -/
def wordOfBytes (hi lo : Byte) : Word := hi ++ lo

/-- The two bytes of a word as memory holds them: `w[15:8]`, then `w[7:0]` (R57). -/
def bytesOfWord (w : Word) : List Byte := [w.extractLsb' 8 8, w.extractLsb' 0 8]

/-- Decode the first instruction of a byte sequence and give back the rest. -/
def decodeBytes : List Byte → Except DecodeError (Instr × List Byte)
  | hi :: lo :: rest =>
    match decode (wordOfBytes hi lo) with
    | .ok i => .ok (i, rest)
    | .error e => .error e
  | _ => .error .truncated

/-! The encoder: one line per row of R76. -/

/-- The format `A`: op, nnn. -/
def encodeA (op : Nibble) (nnn : Addr12) : Word := op ++ nnn

/-- The formats `XI` and `X`: op, x, and the low byte, an immediate or a sub-opcode. -/
def encodeXI (op : Nibble) (x : Reg) (nn : Byte) : Word := op ++ (BitVec.ofFin x : Nibble) ++ nn

/-- The formats `XY` and `XYN`: op, x, y, and the low nibble, a sub-opcode or the sprite height. -/
def encodeXY (op : Nibble) (x y : Reg) (n : Nibble) : Word :=
  op ++ (BitVec.ofFin x : Nibble) ++ (BitVec.ofFin y : Nibble) ++ n

/-- The word of an instruction (R76). -/
def encode : Instr → Word
  | .clear => 0x00E0#16
  | .ret => 0x00EE#16
  | .machineSubroutine nnn => encodeA 0x0#4 nnn
  | .jump nnn => encodeA 0x1#4 nnn
  | .call nnn => encodeA 0x2#4 nnn
  | .skipEqualImmediate x nn => encodeXI 0x3#4 x nn
  | .skipNotEqualImmediate x nn => encodeXI 0x4#4 x nn
  | .skipEqualRegister x y => encodeXY 0x5#4 x y 0x0#4
  | .loadImmediate x nn => encodeXI 0x6#4 x nn
  | .addImmediate x nn => encodeXI 0x7#4 x nn
  | .loadRegister x y => encodeXY 0x8#4 x y 0x0#4
  | .or x y => encodeXY 0x8#4 x y 0x1#4
  | .and x y => encodeXY 0x8#4 x y 0x2#4
  | .xor x y => encodeXY 0x8#4 x y 0x3#4
  | .addRegister x y => encodeXY 0x8#4 x y 0x4#4
  | .subRegisterXY x y => encodeXY 0x8#4 x y 0x5#4
  | .shiftRight x y => encodeXY 0x8#4 x y 0x6#4
  | .subRegisterYX x y => encodeXY 0x8#4 x y 0x7#4
  | .shiftLeft x y => encodeXY 0x8#4 x y 0xE#4
  | .skipNotEqualRegister x y => encodeXY 0x9#4 x y 0x0#4
  | .loadIndex nnn => encodeA 0xA#4 nnn
  | .jumpAdd nnn => encodeA 0xB#4 nnn
  | .loadRandom x nn => encodeXI 0xC#4 x nn
  | .draw x y n => encodeXY 0xD#4 x y n
  | .skipKeyPressed x => encodeXI 0xE#4 x 0x9E#8
  | .skipKeyNotPressed x => encodeXI 0xE#4 x 0xA1#8
  | .loadDelay x => encodeXI 0xF#4 x 0x07#8
  | .waitForKey x => encodeXI 0xF#4 x 0x0A#8
  | .setDelay x => encodeXI 0xF#4 x 0x15#8
  | .setSound x => encodeXI 0xF#4 x 0x18#8
  | .addIndex x => encodeXI 0xF#4 x 0x1E#8
  | .loadFont x => encodeXI 0xF#4 x 0x29#8
  | .storeBCD x => encodeXI 0xF#4 x 0x33#8
  | .storeRegisters x => encodeXI 0xF#4 x 0x55#8
  | .loadRegisters x => encodeXI 0xF#4 x 0x65#8

/-- The word the opcode table numbers by `nbits` and `w`: bit 0 is the least significant bit of the one 16-bit
word, and every bit above `nbits` is 0. -/
def tableWord (nbits w : Nat) : Word := BitVec.ofNat 16 (w % 2 ^ nbits)

/-- The instruction the decoder reads from a row of the opcode table, laid out in memory order first. -/
def decodeTableWord (nbits w : Nat) : Option Instr :=
  match decodeBytes (bytesOfWord (tableWord nbits w)) with
  | .ok (i, _) => some i
  | .error _ => none

end Sys2Proof
end

