-- ==== Sys2Proof/Machine/State.lean ====
section
/-! DEFINITION. The state of the core (spec/10_state.md), the typed errors (spec/60_exceptions.md R230, R231),
and the state after reset (spec/70_reset_and_hazards.md R262). -/

namespace Sys2Proof.Machine

/-- Memory: the bytes that differ from the reset contents, as (address, byte) pairs with rising addresses
(R37; the canonical form is `Memory.wf` in Machine/Ops.lean). -/
abbrev Memory := List Host.Cell

/-- The 64 x 32 one-bit framebuffer: 32 rows of 64 pixels, row 0 on top, and bit x of a row is column x (R38). -/
abbrev Framebuffer := Vector (BitVec Config.screenW) Config.screenH

/-- The inputs of one `cycle` transaction (R6, R100). -/
structure CycleInput where
  /-- `current_keys` (R36). -/
  current : Keys
  /-- `previous_keys` (R36). -/
  previous : Keys
  /-- The draw `rnd` (R34). -/
  rnd : Byte
  deriving DecidableEq, Repr

/-- The host's mutating transactions (R6, R60: "`cycle` and `update_timers` are the only mutators"). -/
inductive Transaction where
  /-- `cycle(current_keys, previous_keys, rnd)` (R100). -/
  | cycle (input : CycleInput)
  /-- `update_timers()`, one 60 Hz tick (R245). -/
  | updateTimers
  deriving DecidableEq, Repr

/-- The state. The first nine fields are the whole architectural state (R40). The last three are the model's own:
where the host's inputs to the core stand (log entries 1, 2, 3). -/
@[ext]
structure State where
  /-- V0 to VF (R20). -/
  v : Vector Byte Config.numV
  /-- The index register I (R29). -/
  i : BitVec Config.iWidth
  /-- The program counter (R25). -/
  pc : BitVec Config.pcWidth
  /-- The stack pointer, the number of entries in use, in [0, `STACK_DEPTH`] = [0, 12] (R30). -/
  sp : Fin (Config.stackDepth + 1)
  /-- The call stack, `stack[0]` the oldest entry; entries from sp on are never read (R30, R32). -/
  stack : Vector Word Config.stackDepth
  /-- The delay timer (R35). -/
  delay : BitVec Config.timerWidth
  /-- The sound timer (R35). -/
  sound : BitVec Config.timerWidth
  /-- The 4096-byte memory (R37). -/
  mem : Memory
  /-- The framebuffer (R38). -/
  fb : Framebuffer
  /-- The model's own: the inputs of the cycle in progress (R36: an argument of `cycle`, not held by the core). -/
  input : CycleInput
  /-- The model's own: the host's pending transactions, oldest first. -/
  host : List Transaction
  /-- The model's own: how many cycles, with the ticks before them, have come from the free values of Config. -/
  draws : Nat
  deriving DecidableEq, Repr

/-- `CycleError`, the typed failures of a cycle (R230). Each ends the cycle, changes nothing and is the cycle's
result (R106, R234); a run ends at it (R273, the spec's decision D30: log entry 4). -/
inductive Fault where
  /-- Code 1. Raised by the decoder on an illegal word (R77). Safe: the spec names the error. -/
  | unknownInstruction (word : Word)
  /-- Code 2. Raised by `0NNN`, always (R120). Safe: the spec names the error. -/
  | unknownMachineSubroutine (nnn : Addr12)
  /-- Code 3. Raised by `00EE` with sp = 0 (R122). Safe: the spec names the error. -/
  | emptyStackReturn
  /-- Code 4. Raised by `2NNN` with sp = 12 (R124). Safe: the run stops where the reference overwrites memory. -/
  | stackOverflow
  /-- Code 5. Raised by `DXYN` with I + n > 4096 (R199). Safe: the run stops. -/
  | spriteOutOfBounds (i : Word) (n : Nibble)
  /-- Code 6. Raised by `FX33`, `FX55`, `FX65` with I + len > 4096 (R175 to R177). Safe: the run stops. -/
  | memoryOutOfBounds (i : Word) (len : Nat)
  /-- Code 7. Raised by the fetch of any cycle with pc + 2 > 4096 (R101). Safe: the run stops. -/
  | fetchOutOfBounds (pc : Word)
  /-- Code 8. Raised by `EX9E` and `EXA1` with VX > 0xF (R211, R212). Safe: the run stops. -/
  | keyIndexOutOfRange (v : Byte)
  deriving DecidableEq, Repr

/-- Why the model gives an instruction no meaning. -/
inductive Refusal where
  /-- Raised by an arm of `exec` whose instruction has no meaning yet; no arm does so now. Safe: the run stops. -/
  | notModelled (mnemonic : String)
  deriving DecidableEq, Repr

/-- The typed errors of the other transactions (R231); they change no state and end no run. -/
inductive HostError where
  /-- Code 16. From `construct` when the program does not fit (R261). -/
  | programTooLarge (len : Nat)
  /-- Code 17. From `get_pixel` and `set_pixel` outside 64 x 32 (R205, R206). -/
  | screenOutOfBounds (x y : Nat)
  deriving DecidableEq, Repr

/-- What a mutating transaction answers the host (R6). -/
inductive Reply where
  /-- The transaction succeeded. -/
  | ok
  /-- The cycle failed with this error (R230). -/
  | error (e : Fault)
  /-- The model has no meaning for the cycle's instruction; no instruction of this model answers so. -/
  | refused (r : Refusal)
  deriving DecidableEq, Repr

/-- What one instruction does: the next state, or a failure (R103). -/
abbrev Result := Host.Outcome State Fault Refusal

/-- The state right after `construct` with the default font and an empty program (R260, R262): memory lists
nothing, because an unlisted byte reads as the reset contents. The zeros of V, I, sp, the stack, the timers and
the framebuffer are the spec's decision D20 (log entry 5; unsafe). The last three fields are the model's own
(DESIGN CHOICE, log entries 1, 2, 3): no transaction pending, so that the host's calls are free values from the first step on, none
drawn yet, and an input that the first cycle overwrites. -/
def State.reset : State where
  v := Vector.replicate Config.numV 0#8
  i := 0#16
  pc := Config.pcReset
  sp := 0
  stack := Vector.replicate Config.stackDepth 0#16
  delay := 0#8
  sound := 0#8
  mem := []
  fb := Vector.replicate Config.screenH 0#64
  input :=
    { current := Vector.replicate Config.numKeys false
      previous := Vector.replicate Config.numKeys false
      rnd := 0#8 }
  host := []
  draws := 0

end Sys2Proof.Machine
end

