-- ==== Sys2Proof/Machine/Ops.lean ====
section
/-! DEFINITION. The named operations every meaning is built from: memory (spec/20_memory.md), the register file,
the stack and the pc (spec/10_state.md, 40_cycle.md), the framebuffer (spec/44_display.md), and raising an error
(spec/60_exceptions.md). -/

namespace Sys2Proof.Machine

/-! ## The reset contents of memory -/

/-- The conventional CHIP-8 glyphs 0 to F, five row bytes each (R56). PRESUMED: the spec marks the bytes as
general knowledge (D28, G2); log entry 7; unsafe. -/
def fontGlyphs : List (List Byte) :=
  [[0xF0, 0x90, 0x90, 0x90, 0xF0], [0x20, 0x60, 0x20, 0x20, 0x70],
   [0xF0, 0x10, 0xF0, 0x80, 0xF0], [0xF0, 0x10, 0xF0, 0x10, 0xF0]] ++
  [[0x90, 0x90, 0xF0, 0x10, 0x10], [0xF0, 0x80, 0xF0, 0x10, 0xF0],
   [0xF0, 0x80, 0xF0, 0x90, 0xF0], [0xF0, 0x10, 0x20, 0x40, 0x40]] ++
  [[0xF0, 0x90, 0xF0, 0x90, 0xF0], [0xF0, 0x90, 0xF0, 0x10, 0xF0],
   [0xF0, 0x90, 0xF0, 0x90, 0x90], [0xE0, 0x90, 0xE0, 0x90, 0xE0]] ++
  [[0xF0, 0x80, 0x80, 0x80, 0xF0], [0xE0, 0x90, 0x90, 0x90, 0xE0],
   [0xF0, 0x80, 0xF0, 0x80, 0xF0], [0xF0, 0x80, 0xF0, 0x80, 0x80]]

/-- The default `FONT`, 80 bytes: glyph d at 5 * d (R56). -/
def defaultFont : List Byte := fontGlyphs.flatten

/-- What an address that memory does not list reads as: the contents `construct` leaves with the default font and
no program, the font from `FONT_BASE` on and zero elsewhere (R51, R56). -/
def initialByte (a : Nat) : Byte :=
  if a < Config.fontBase + Config.fontSize then defaultFont.getD (a - Config.fontBase) 0#8 else 0#8

/-! ## Memory -/

/-- The byte at address `a`. -/
def Memory.read : Memory → Nat → Byte
  | [], a => initialByte a
  | (k, b) :: m, a => if k = a then b else Memory.read m a

/-- A cell in front of a memory, left out where it says what an unlisted address reads as. -/
def Memory.cons (a : Nat) (b : Byte) (m : Memory) : Memory :=
  if b = initialByte a then m else (a, b) :: m

/-- Write one byte, keeping the addresses rising and no cell that repeats the reset contents. -/
def Memory.write : Memory → Nat → Byte → Memory
  | [], a, b => Memory.cons a b []
  | (k, c) :: m, a, b =>
    if a < k then Memory.cons a b ((k, c) :: m)
    else if a = k then Memory.cons a b m
    else (k, c) :: Memory.write m a b

/-- The `n` bytes at `a, a + 1, …`. -/
def Memory.readBytes (m : Memory) (a : Nat) : Nat → List Byte
  | 0 => []
  | n + 1 => m.read a :: m.readBytes (a + 1) n

/-- Write the bytes at `a, a + 1, …`, at increasing addresses (R52). -/
def Memory.writeBytes (m : Memory) (a : Nat) : List Byte → Memory
  | [] => m
  | b :: bs => (m.write a b).writeBytes (a + 1) bs

/-- Addresses rise from `lo` on, lie inside memory, and no cell repeats the reset contents. -/
def Memory.wfFrom : Nat → Memory → Bool
  | _, [] => true
  | lo, (a, b) :: m =>
    decide (lo ≤ a) && decide (a < Config.memSize) && decide (b ≠ initialByte a) && Memory.wfFrom (a + 1) m

/-- The canonical form of memory: equal memories are equal lists. -/
def Memory.wf (m : Memory) : Bool := Memory.wfFrom 0 m

/-! The bounds-checked accessors (R52, R53): an access that would pass 4096 is rejected, never clamped or wrapped. -/

/-- `get(index)`. -/
def Memory.get (m : Memory) (a : Nat) : Option Byte :=
  if a + 1 > Config.memSize then none else some (m.read a)

/-- `set(index, value)`. -/
def Memory.set (m : Memory) (a : Nat) (b : Byte) : Option Memory :=
  if a + 1 > Config.memSize then none else some (m.write a b)

/-- `get_bytes(index, len)`, the spec's `MemRead`: the whole access is checked first, also for len = 0 (R53, D18). -/
def Memory.getBytes (m : Memory) (a n : Nat) : Option (List Byte) :=
  if a + n > Config.memSize then none else some (m.readBytes a n)

/-- The spec's `MemWrite`: successive `set`s, none of them unless the whole access is inside memory (R52, R53). -/
def Memory.setBytes (m : Memory) (a : Nat) (bs : List Byte) : Option Memory :=
  if a + bs.length > Config.memSize then none else some (m.writeBytes a bs)

/-! ## Registers -/

/-- `V[x]` (R10, R20). -/
def State.reg (s : State) (x : Reg) : Byte := s.v[x]

/-- `V[x] <- b` (R10): no register is hardwired (R20). -/
def State.setReg (s : State) (x : Reg) (b : Byte) : State := { s with v := s.v.set x b }

/-- The first bytes of `bs` into V0, V1, …; registers past the last byte keep their value (R177). -/
def State.loadRegs (s : State) (bs : List Byte) : State :=
  { s with v := Vector.ofFn fun k : Reg => bs.getD k.val (s.reg k) }

/-- V0 to Vx, x + 1 bytes (R176). -/
def State.regsUpTo (s : State) (x : Reg) : List Byte := s.v.toList.take (x.val + 1)

/-- `I <- w`. -/
def State.setI (s : State) (w : Word) : State := { s with i := w }

/-- `delay <- b` (R35). -/
def State.setDelay (s : State) (b : Byte) : State := { s with delay := b }

/-- `sound <- b` (R35). -/
def State.setSound (s : State) (b : Byte) : State := { s with sound := b }

/-- The memory after a store. -/
def State.setMem (s : State) (m : Memory) : State := { s with mem := m }

/-- The framebuffer after a draw or a clear. -/
def State.setFb (s : State) (fb : Framebuffer) : State := { s with fb := fb }

/-- The inputs of the cycle about to run. -/
def State.setInput (s : State) (inp : CycleInput) : State := { s with input := inp }

/-- The host's remaining transactions. -/
def State.setHost (s : State) (ts : List Transaction) : State := { s with host := ts }

/-! ## The call stack (R30 to R33) -/

/-- Push a return address; `none` when all 12 entries are in use. -/
def State.push (s : State) (a : Word) : Option State :=
  if h : s.sp.val < Config.stackDepth then
    some { s with stack := s.stack.set s.sp.val a h, sp := ⟨s.sp.val + 1, Nat.succ_lt_succ h⟩ }
  else none

/-- Pop the top entry, which is not cleared (R32); `none` when the stack is empty. -/
def State.pop (s : State) : Option (Word × State) :=
  if h : 0 < s.sp.val then
    some (s.stack[s.sp.val - 1]'(by have := s.sp.isLt; omega),
      { s with sp := ⟨s.sp.val - 1, by have := s.sp.isLt; omega⟩ })
  else none

/-! ## The program counter (spec/40_cycle.md R103, R104) -/

/-- The pc outcome `adv` of an instruction (R103). -/
inductive Advance where
  /-- The default increment. -/
  | next
  /-- Skip one more word. -/
  | skip
  /-- `pc <- t`, no increment. -/
  | set (t : Word)
  /-- pc unchanged. -/
  | stay
  deriving DecidableEq, Repr

/-- `next_pc(pc, adv)`, modulo 2^16; pc is the address of the executed instruction (R104). -/
def nextPc (pc : Word) : Advance → Word
  | .next => pc + 2#16
  | .skip => pc + 4#16
  | .set t => t
  | .stay => pc

/-- Commit: the writes stand in the state already, the pc is set last (R104). -/
def State.commit (s : State) (adv : Advance) : State := { s with pc := nextPc s.pc adv }

/-! ## Errors -/

/-- `raise E`: the cycle ends with the error as its result. There is no trap entry: nothing is saved, no mode
changes, no vector is taken (R10, R106, R234), and no return from it exists (R235). -/
def raise (e : Fault) : Result := .fault e

/-- The numeric code of a `CycleError` (R230; the spec's decision D23). -/
def Fault.code : Fault → Nat
  | .unknownInstruction _ => 1
  | .unknownMachineSubroutine _ => 2
  | .emptyStackReturn => 3
  | .stackOverflow => 4
  | .spriteOutOfBounds _ _ => 5
  | .memoryOutOfBounds _ _ => 6
  | .fetchOutOfBounds _ => 7
  | .keyIndexOutOfRange _ => 8

/-- The numeric code of an error outside `cycle` (R231; the spec's decision D23). -/
def HostError.code : HostError → Nat
  | .programTooLarge _ => 16
  | .screenOutOfBounds _ _ => 17

/-! ## The framebuffer (spec/44_display.md) -/

/-- The pixel in column x, row y; false outside the screen. -/
def pixel (fb : Framebuffer) (x y : Nat) : Bool :=
  if h : y < Config.screenH then fb[y].getLsbD x else false

/-- The framebuffer with one pixel set to `b`; a pixel outside the screen does not exist and nothing changes. -/
def putPixel (fb : Framebuffer) (x y : Nat) (b : Bool) : Framebuffer :=
  if h : y < Config.screenH then
    fb.set y (if b then fb[y] ||| BitVec.twoPow Config.screenW x else fb[y] &&& ~~~(BitVec.twoPow Config.screenW x)) h
  else fb

/-- `get_pixel(x, y)`, bounds-checked (R205). -/
def getPixel (fb : Framebuffer) (x y : Nat) : Except HostError Bool :=
  if x < Config.screenW ∧ y < Config.screenH then .ok (pixel fb x y) else .error (.screenOutOfBounds x y)

/-- `set_pixel(x, y, v)`, bounds-checked (R206). -/
def setPixel (fb : Framebuffer) (x y : Nat) (b : Bool) : Except HostError Framebuffer :=
  if x < Config.screenW ∧ y < Config.screenH then .ok (putPixel fb x y b) else .error (.screenOutOfBounds x y)

/-- `clear()`: every pixel false (R191). -/
def clearScreen : Framebuffer := Vector.replicate Config.screenH 0#64

/-- One pixel of step 4: XOR with the sprite bit, and record a collision where both were 1 (R195). -/
def drawPixel (x y : Nat) (bit : Bool) (acc : Framebuffer × Bool) : Framebuffer × Bool :=
  let old := pixel acc.1 x y
  (putPixel acc.1 x y (old ^^ bit), acc.2 || (old && bit))

/-- Columns `c, c + 1, …` of one sprite row, `n` of them: bit 7 of the row byte is column 0 (R195). -/
def drawColumns (x0 y : Nat) (row : Byte) (c : Nat) : Nat → Framebuffer × Bool → Framebuffer × Bool
  | 0, acc => acc
  | n + 1, acc => drawColumns x0 y row (c + 1) n (drawPixel (x0 + c) y (row.getLsbD (7 - c)) acc)

/-- The sprite rows from screen row `y` down, each `w` columns wide (R195). -/
def drawRows (x0 w y : Nat) : List Byte → Framebuffer × Bool → Framebuffer × Bool
  | [], acc => acc
  | row :: rows, acc => drawRows x0 w (y + 1) rows (drawColumns x0 y row 0 w acc)

/-- `draw_sprite(x, y, rows)`: empty sprite, anchor wrap, clip, XOR and collision, result (R192 to R196). -/
def drawSprite (fb : Framebuffer) (x y : Byte) (rows : List Byte) : Framebuffer × Bool :=
  if rows.isEmpty then (fb, false)
  else
    let x0 := x.toNat % Config.screenW
    let y0 := y.toNat % Config.screenH
    let w := min Config.spriteW (Config.screenW - x0)
    let h := min rows.length (Config.screenH - y0)
    drawRows x0 w y0 (rows.take h) (fb, false)

/-! ## Fetch -/

/-- The 16-bit word at pc and pc + 1, big-endian, at any parity of pc; `none` when pc + 2 > 4096 (R57, R58, R101). -/
def State.fetchWord (s : State) : Option Word :=
  if s.pc.toNat + 2 > Config.memSize then none
  else some (wordOfBytes (s.mem.read s.pc.toNat) (s.mem.read (s.pc.toNat + 1)))

end Sys2Proof.Machine
end

