-- ==== Sys2Proof/Machine/Flags.lean ====
section
/-! DEFINITION. The flag computations, whose result goes to VF (spec/10_state.md R21, R22; 42_alu.md R140, R141). -/

namespace Sys2Proof.Machine

/-- A condition as the byte VF takes: 1 or 0. -/
def flagByte (c : Bool) : Byte := if c then 1#8 else 0#8

/-- Carry: "the unsigned addition overflows 8 bits", a + b > 255 (R140, R148). -/
def carryOut (a b : Byte) : Bool := decide (a.toNat + b.toNat > 255)

/-- Not-borrow of a - b: a ≥ b (R140, R149, R151). -/
def notBorrow (a b : Byte) : Bool := decide (a.toNat ≥ b.toNat)

/-- The bit a right shift by one shifts out (R150). -/
def lsbOut (b : Byte) : Bool := b.getLsbD 0

/-- The bit a left shift by one shifts out (R152). -/
def msbOut (b : Byte) : Bool := b.getLsbD 7

/-- `V[x] <- result` first, `V[0xF] <- flag` second: with x = 0xF the flag survives (R141; the spec's decision D8: log
entry 8). -/
def State.setRegFlag (s : State) (x : Reg) (result : Byte) (flag : Bool) : State :=
  (s.setReg x result).setReg Config.flagReg (flagByte flag)

end Sys2Proof.Machine
end

