-- ==== Sys2Proof/Machine/Operands.lean ====
section
/-! DEFINITION. The operand forms (spec/30_encoding.md R73, 43_index_memory.md R170, 45_keys_timers.md R210): every
immediate is unsigned and taken as it is, memory is reached through I, keys and the draw come with the cycle. -/

namespace Sys2Proof.Machine

/-- The address immediate nnn, zero-extended to 16 bits (R73). -/
def zextAddr (nnn : Addr12) : Word := nnn.setWidth 16

/-- A register value zero-extended to 16 bits (R9, R125, R172). -/
def zextByte (b : Byte) : Word := b.setWidth 16

/-- The address of byte k of an access through I, computed without wrap (R170). -/
def State.effectiveAddress (s : State) (k : Nat) : Nat := s.i.toNat + k

/-- The target of `BNNN`: nnn + V0 modulo 2^16, not reduced to 12 bits (R125). PRESUMED: that the register is V0 is
the spec's general knowledge (G5, D11); log entry 8. -/
def State.jumpAddTarget (s : State) (nnn : Addr12) : Word := zextAddr nnn + zextByte (s.reg 0)

/-- The address `FX29` computes: `FONT_BASE + FONT_GLYPH_BYTES * VX`, VX not masked (R173; D13, G8: log entry 8). -/
def fontAddress (b : Byte) : Word := BitVec.ofNat 16 (Config.fontBase + Config.fontGlyphBytes * b.toNat)

/-- The key a register names, none when the value is above 0xF (R211, R212). -/
def keyIndex (b : Byte) : Option Key :=
  if h : b.toNat < Config.numKeys then some ⟨b.toNat, h⟩ else none

/-- Key k is down in the cycle's current snapshot (R210). -/
def State.keyDown (s : State) (k : Key) : Bool := s.input.current[k]

/-- Key k has a falling edge in this cycle: down in the previous snapshot, up in the current one (R12, R215). -/
def State.fallingEdge (s : State) (k : Key) : Bool := s.input.previous[k] && !s.input.current[k]

/-- The lowest key with a falling edge (R215; the lowest of several is the spec's decision D15). -/
def State.lowestFallingEdge (s : State) : Option Key := (List.finRange Config.numKeys).find? s.fallingEdge

/-- The cycle's draw (R34). -/
def State.rnd (s : State) : Byte := s.input.rnd

/-- The three decimal digits of a byte: hundreds, tens, ones (R175). -/
def bcdDigits (b : Byte) : List Byte :=
  [BitVec.ofNat 8 (b.toNat / 100), BitVec.ofNat 8 (b.toNat / 10 % 10), BitVec.ofNat 8 (b.toNat % 10)]

end Sys2Proof.Machine
end

