-- ==== Sys2Proof/Machine/Alu.lean ====
section
/-! DEFINITION. Register loads and the ALU (spec/42_alu.md): unsigned 8-bit values modulo 256 (R140), all operands
read before anything is written (R141), pc outcome `Next`, no error. -/

namespace Sys2Proof.Machine

/-- `V[x] <- b`, pc outcome `Next`. -/
def writeReg (x : Reg) (b : Byte) (s : State) : Result := .next ((s.setReg x b).commit .next)

/-- `V[x] <- b`, then `V[0xF] <- flag`, pc outcome `Next` (R141). -/
def writeRegFlag (x : Reg) (b : Byte) (flag : Bool) (s : State) : Result :=
  .next ((s.setRegFlag x b flag).commit .next)

/-- `6XNN` (R142). -/
def execLoadImmediate (x : Reg) (nn : Byte) (s : State) : Result := writeReg x nn s

/-- `7XNN`: modulo 256, VF is no carry (R143). -/
def execAddImmediate (x : Reg) (nn : Byte) (s : State) : Result := writeReg x (s.reg x + nn) s

/-- `8XY0` (R144). -/
def execLoadRegister (x y : Reg) (s : State) : Result := writeReg x (s.reg y) s

/-- `8XY1` (R145). -/
def execOr (x y : Reg) (s : State) : Result := writeReg x (s.reg x ||| s.reg y) s

/-- `8XY2` (R146). -/
def execAnd (x y : Reg) (s : State) : Result := writeReg x (s.reg x &&& s.reg y) s

/-- `8XY3` (R147). -/
def execXor (x y : Reg) (s : State) : Result := writeReg x (s.reg x ^^^ s.reg y) s

/-- `8XY4`: VF = carry (R148). -/
def execAddRegister (x y : Reg) (s : State) : Result :=
  writeRegFlag x (s.reg x + s.reg y) (carryOut (s.reg x) (s.reg y)) s

/-- `8XY5`: VX - VY, VF = not borrow (R149). -/
def execSubRegisterXY (x y : Reg) (s : State) : Result :=
  writeRegFlag x (s.reg x - s.reg y) (notBorrow (s.reg x) (s.reg y)) s

/-- `8XY7`: VY - VX, VF = not borrow (R151). -/
def execSubRegisterYX (x y : Reg) (s : State) : Result :=
  writeRegFlag x (s.reg y - s.reg x) (notBorrow (s.reg y) (s.reg x)) s

/-- `8XY6`: VY shifted right by one into VX, VF = the bit shifted out (R150). -/
def execShiftRight (x y : Reg) (s : State) : Result :=
  writeRegFlag x (s.reg y >>> 1) (lsbOut (s.reg y)) s

/-- `8XYE`: VY shifted left by one into VX, VF = the bit shifted out (R152). -/
def execShiftLeft (x y : Reg) (s : State) : Result :=
  writeRegFlag x (s.reg y <<< 1) (msbOut (s.reg y)) s

/-- `CXNN`: the cycle's draw and nn (R153). -/
def execLoadRandom (x : Reg) (nn : Byte) (s : State) : Result := writeReg x (s.rnd &&& nn) s

end Sys2Proof.Machine
end

