-- ==== Sys2Proof/Machine/Control.lean ====
section
/-! DEFINITION. Control transfer and conditional skips (spec/41_control_flow.md). In every meaning `s.pc` is the
address of the instruction being executed (R25). -/

namespace Sys2Proof.Machine

/-- A conditional skip: pc + 4 when the condition holds, pc + 2 otherwise; the skipped word is not looked at (R103,
R105). -/
def skipIf (c : Bool) (s : State) : Result := .next (s.commit (if c then .skip else .next))

/-- `0NNN` always fails (R120). -/
def execMachineSubroutine (nnn : Addr12) (_ : State) : Result := raise (.unknownMachineSubroutine nnn)

/-- `00EE`: pop the address of the call and go on two bytes after it (R122, R33). -/
def execRet (s : State) : Result :=
  match s.pop with
  | none => raise .emptyStackReturn
  | some (t, s') => .next (s'.commit (.set (t + 2#16)))

/-- `1NNN` (R123). -/
def execJump (nnn : Addr12) (s : State) : Result := .next (s.commit (.set (zextAddr nnn)))

/-- `2NNN`: push the address of this instruction and jump (R124, R33). -/
def execCall (nnn : Addr12) (s : State) : Result :=
  match s.push s.pc with
  | none => raise .stackOverflow
  | some s' => .next (s'.commit (.set (zextAddr nnn)))

/-- `BNNN` (R125). -/
def execJumpAdd (nnn : Addr12) (s : State) : Result := .next (s.commit (.set (s.jumpAddTarget nnn)))

/-- `3XNN` (R126). -/
def execSkipEqualImmediate (x : Reg) (nn : Byte) (s : State) : Result := skipIf (s.reg x == nn) s

/-- `4XNN` (R127). -/
def execSkipNotEqualImmediate (x : Reg) (nn : Byte) (s : State) : Result := skipIf (s.reg x != nn) s

/-- `5XY0` (R128). -/
def execSkipEqualRegister (x y : Reg) (s : State) : Result := skipIf (s.reg x == s.reg y) s

/-- `9XY0` (R129). -/
def execSkipNotEqualRegister (x y : Reg) (s : State) : Result := skipIf (s.reg x != s.reg y) s

end Sys2Proof.Machine
end

