-- ==== Sys2Proof/Machine/Display.lean ====
section
/-! DEFINITION. The display instructions (spec/44_display.md). -/

namespace Sys2Proof.Machine

/-- `00E0`: every pixel false, VF not written (R198). -/
def execClear (s : State) : Result := .next ((s.setFb clearScreen).commit .next)

/-- `DXYN`: n rows read at I (all of them, clipped or not), drawn at VX, VY, then VF = collision, also for n = 0 (R199). -/
def execDraw (x y : Reg) (n : Nibble) (s : State) : Result :=
  match s.mem.getBytes (s.effectiveAddress 0) n.toNat with
  | none => raise (.spriteOutOfBounds s.i n)
  | some rows =>
    let drawn := drawSprite s.fb (s.reg x) (s.reg y) rows
    .next (((s.setFb drawn.1).setReg Config.flagReg (flagByte drawn.2)).commit .next)

end Sys2Proof.Machine
end

