-- ==== Sys2Proof/Machine/IndexMemory.lean ====
section
/-! DEFINITION. The index register, loads and stores (spec/43_index_memory.md): the whole access is checked before any
byte moves (R53, R170). -/

namespace Sys2Proof.Machine

/-- `ANNN` (R171). -/
def execLoadIndex (nnn : Addr12) (s : State) : Result := .next ((s.setI (zextAddr nnn)).commit .next)

/-- `FX1E`: modulo 2^16, VF not written (R172). -/
def execAddIndex (x : Reg) (s : State) : Result := .next ((s.setI (s.i + zextByte (s.reg x))).commit .next)

/-- `FX29` (R173). -/
def execLoadFont (x : Reg) (s : State) : Result := .next ((s.setI (fontAddress (s.reg x))).commit .next)

/-- `FX33`: the digits of VX at I, I + 1, I + 2; I unchanged (R175). -/
def execStoreBCD (x : Reg) (s : State) : Result :=
  match s.mem.setBytes (s.effectiveAddress 0) (bcdDigits (s.reg x)) with
  | none => raise (.memoryOutOfBounds s.i 3)
  | some m => .next ((s.setMem m).commit .next)

/-- I advanced by the x + 1 bytes of a block transfer, modulo 2^16 (R176, R177). -/
def State.advanceI (s : State) (x : Reg) : State := s.setI (s.i + BitVec.ofNat 16 (x.val + 1))

/-- `FX55`: V0..VX to memory at I, then I advanced by x + 1 (R176). -/
def execStoreRegisters (x : Reg) (s : State) : Result :=
  match s.mem.setBytes (s.effectiveAddress 0) (s.regsUpTo x) with
  | none => raise (.memoryOutOfBounds s.i (x.val + 1))
  | some m => .next (((s.setMem m).advanceI x).commit .next)

/-- `FX65`: V0..VX from memory at I, then I advanced by x + 1 (R177). -/
def execLoadRegisters (x : Reg) (s : State) : Result :=
  match s.mem.getBytes (s.effectiveAddress 0) (x.val + 1) with
  | none => raise (.memoryOutOfBounds s.i (x.val + 1))
  | some bs => .next (((s.loadRegs bs).advanceI x).commit .next)

end Sys2Proof.Machine
end

