-- ==== Sys2Proof/Machine/KeysTimers.lean ====
section
/-! DEFINITION. Keypad and timer instructions (spec/45_keys_timers.md). -/

namespace Sys2Proof.Machine

/-- `EX9E`: skip when the key is down in the current snapshot (R211). -/
def execSkipKeyPressed (x : Reg) (s : State) : Result :=
  match keyIndex (s.reg x) with
  | none => raise (.keyIndexOutOfRange (s.reg x))
  | some k => skipIf (s.keyDown k) s

/-- `EXA1`: skip when the key is up in the current snapshot (R212). -/
def execSkipKeyNotPressed (x : Reg) (s : State) : Result :=
  match keyIndex (s.reg x) with
  | none => raise (.keyIndexOutOfRange (s.reg x))
  | some k => skipIf (!s.keyDown k) s

/-- `FX0A`: the lowest key released in this cycle goes to VX; without one nothing is written and pc stays (R215). -/
def execWaitForKey (x : Reg) (s : State) : Result :=
  .next (match s.lowestFallingEdge with
    | none => s.commit .stay
    | some k => (s.setReg x (BitVec.ofNat 8 k.val)).commit .next)

/-- `FX07` (R213). -/
def execLoadDelay (x : Reg) (s : State) : Result := .next ((s.setReg x s.delay).commit .next)

/-- `FX15` (R216). -/
def execSetDelay (x : Reg) (s : State) : Result := .next ((s.setDelay (s.reg x)).commit .next)

/-- `FX18` (R217). -/
def execSetSound (x : Reg) (s : State) : Result := .next ((s.setSound (s.reg x)).commit .next)

end Sys2Proof.Machine
end

