-- ==== Sys2Proof/Machine/Cycle.lean ====
section
/-! DEFINITION. The fetch-decode-execute cycle (spec/40_cycle.md) and the host's other transactions (spec/00_scope.md R6):
`update_timers`, `is_sound_playing`, `get_pixel` and `construct`. -/

namespace Sys2Proof.Machine

/-- One cycle on the inputs that stand in the state: fetch, decode, execute and commit, in this order, the first check
that fails ending it (R100 to R104, R233). -/
def runCycle (s : State) : Result :=
  match s.fetchWord with
  | none => raise (.fetchOutOfBounds s.pc)
  | some w =>
    match decode w with
    | .error _ => raise (.unknownInstruction w)
    | .ok i => exec i s

/-- The timer after a tick: one less, floored at 0 (R245). -/
def tickDown (t : BitVec Config.timerWidth) : BitVec Config.timerWidth := if t.toNat > 0 then t - 1#8 else t

/-- `update_timers()`: both timers, nothing else (R245). -/
def updateTimers (s : State) : State := (s.setDelay (tickDown s.delay)).setSound (tickDown s.sound)

/-- `is_sound_playing()`: sound ≥ 2 (R246). -/
def State.isSoundPlaying (s : State) : Bool := decide (s.sound.toNat ≥ Config.soundThreshold)

/-- The host's read-only view of the screen, `get_pixel(x, y)` (R205). -/
def State.screenPixel (s : State) (x y : Nat) : Except HostError Bool := getPixel s.fb x y

/-- `construct(program)`, the only reset, with the font as an argument (R260, R261; FONT is the spec's open parameter,
D28): the font at 0, the program verbatim at 0x200, zero elsewhere, every other field as after reset. -/
def State.construct (font : Vector Byte Config.fontSize) (program : List Byte) : Except HostError State :=
  if program.length > Config.maxProgram then .error (.programTooLarge program.length)
  else
    let withFont := State.reset.mem.writeBytes Config.fontBase font.toList
    .ok (State.reset.setMem (withFont.writeBytes Config.progBase program))

/-- What one mutating transaction does to the core: a cycle on its inputs, or a tick, which never fails (R100, R245). -/
def perform (t : Transaction) (s : State) : Result :=
  match t with
  | .cycle inp => runCycle (s.setInput inp)
  | .updateTimers => .next (updateTimers s)

/-- One mutating transaction as the host sees it: the core's next state and the reply. A failed cycle leaves the state
as it was, and the core accepts further transactions (R42, R106, R107). -/
def transact (t : Transaction) (s : State) : State × Reply :=
  match perform t s with
  | .next s' => (s', .ok)
  | .fault e => (s, .error e)
  | .refused r => (s, .refused r)

/-- The inputs of the k-th cycle that no pending transaction names: free values (log entry 2). -/
def freeInput (k : Nat) : CycleInput where
  current := Config.freeCurrentKeys k
  previous := Config.freePreviousKeys k
  rnd := Config.freeRnd k

/-- `n` ticks, then a cycle on these inputs, then `ts`. -/
def ticksThenCycle (n : Nat) (inp : CycleInput) (ts : List Transaction) : List Transaction :=
  List.replicate n .updateTimers ++ .cycle inp :: ts

/-- The host's next transaction, and the state without it. With none pending the host's calls up to its next cycle are drawn: a
free number of ticks, then a cycle on free inputs (R245, D26: any interleaving; DESIGN CHOICE, log entries 1, 2). -/
def State.nextCall (s : State) : Transaction × State :=
  match s.host with
  | t :: ts => (t, s.setHost ts)
  | [] =>
    let drawn := { s with draws := s.draws + 1 }
    match Config.freeTicks s.draws with
    | 0 => (.cycle (freeInput s.draws), drawn)
    | n + 1 => (.updateTimers, drawn.setHost (ticksThenCycle n (freeInput s.draws) []))

/-- The machine's next transition: one transaction of the host (R6, R60: "a single sequence of atomic transactions"). -/
def nextTransaction (s : State) : Result := perform s.nextCall.1 s.nextCall.2

/-- `s` with a cycle as the host's next transaction: the ticks before the first pending cycle dropped, and with none pending a cycle on
free inputs (log entry 9). -/
def State.cycleFirst (s : State) : State :=
  match s.host.dropWhile (fun t => t == .updateTimers) with
  | [] => { s with host := [.cycle (freeInput s.draws)], draws := s.draws + 1 }
  | t :: ts => s.setHost (t :: ts)

/-- Where a word is placed so that the next fetch reads it: at pc, or at the reset pc where none can be fetched. -/
def fetchable (pc : Word) : Word := if pc.toNat + 2 > Config.memSize then Config.pcReset else pc

/-- `s` with the word stored at the address of the next fetch and a cycle as the host's next transaction (log entry 9). -/
def placeWord (s : State) (w : Word) : State :=
  { s.cycleFirst with
    pc := fetchable s.pc
    mem := s.mem.writeBytes (fetchable s.pc).toNat (bytesOfWord w) }

end Sys2Proof.Machine
end

