-- ==== Sys2Proof/Machine/Step.lean ====
section
/-! DEFINITION. One step of the machine: one transaction of the host (spec/00_scope.md R6; 70_reset_and_hazards.md R273). -/

namespace Sys2Proof.Machine

/-- One step: the next transaction. A cycle's error ends the run (R273). -/
def step (s : State) : Host.Outcome State Fault Refusal := nextTransaction s

/-- `s` with the table word `w` (of `nbits` bits) stored where `step` fetches its next instruction, big-endian. -/
def State.withFetchWord (s : State) (nbits w : Nat) : State := placeWord s (tableWord nbits w)

end Sys2Proof.Machine
end

