-- ==== Sys2Proof/Safety.lean ====
section
/-! DEFINITION. The terms the claims use: what a step may leave changed, which instruction may write or read what
(spec/10_state.md R24), which error an instruction raises when (spec/60_exceptions.md R230), and the invariants of a run. -/

namespace Sys2Proof.Machine

/-! ## Frames: `t` is `s` in every field but the named ones, and every byte of memory reads as before where memory is
not named -/

/-- Every address reads as before. -/
def State.sameMemory (s t : State) : Prop := t.mem = s.mem ∧ ∀ a, t.mem.read a = s.mem.read a

/-- Only pc may differ. -/
def State.onlyPc (s t : State) : Prop := t = { s with pc := t.pc } ∧ s.sameMemory t

/-- Only register x and pc may differ. -/
def State.onlyRegPc (s t : State) (x : Reg) : Prop :=
  t = { s with v := t.v, pc := t.pc } ∧ (∀ k, k ≠ x → t.reg k = s.reg k) ∧ s.sameMemory t

/-- Only register x, VF and pc may differ. -/
def State.onlyRegFlagPc (s t : State) (x : Reg) : Prop :=
  t = { s with v := t.v, pc := t.pc } ∧ (∀ k, k ≠ x → k ≠ 15 → t.reg k = s.reg k) ∧ s.sameMemory t

/-- Only I and pc may differ. -/
def State.onlyIPc (s t : State) : Prop := t = { s with i := t.i, pc := t.pc } ∧ s.sameMemory t

/-- Only the stack, its pointer and pc may differ. -/
def State.onlyStackPc (s t : State) : Prop :=
  t = { s with sp := t.sp, stack := t.stack, pc := t.pc } ∧ s.sameMemory t

/-- Only the delay timer and pc may differ. -/
def State.onlyDelayPc (s t : State) : Prop := t = { s with delay := t.delay, pc := t.pc } ∧ s.sameMemory t

/-- Only the sound timer and pc may differ. -/
def State.onlySoundPc (s t : State) : Prop := t = { s with sound := t.sound, pc := t.pc } ∧ s.sameMemory t

/-- Only the framebuffer and pc may differ. -/
def State.onlyScreenPc (s t : State) : Prop := t = { s with fb := t.fb, pc := t.pc } ∧ s.sameMemory t

/-- Only the framebuffer, VF and pc may differ. -/
def State.onlyScreenFlagPc (s t : State) : Prop :=
  t = { s with v := t.v, fb := t.fb, pc := t.pc } ∧ (∀ k, k ≠ 15 → t.reg k = s.reg k) ∧ s.sameMemory t

/-- Only the `n` bytes at the effective addresses 0 to n - 1 and pc may differ. -/
def State.onlyStoredPc (s t : State) (n : Nat) : Prop :=
  t = { s with mem := t.mem, pc := t.pc } ∧
    ∀ a, (∀ k, k < n → a ≠ s.effectiveAddress k) → t.mem.read a = s.mem.read a

/-- Only the `n` bytes at the effective addresses 0 to n - 1, I and pc may differ. -/
def State.onlyStoredIPc (s t : State) (n : Nat) : Prop :=
  t = { s with mem := t.mem, i := t.i, pc := t.pc } ∧
    ∀ a, (∀ k, k < n → a ≠ s.effectiveAddress k) → t.mem.read a = s.mem.read a

/-- Only V0 to Vx, I and pc may differ. -/
def State.onlyRegsUpToIPc (s t : State) (x : Reg) : Prop :=
  t = { s with v := t.v, i := t.i, pc := t.pc } ∧ (∀ k : Reg, x < k → t.reg k = s.reg k) ∧ s.sameMemory t

/-! ## What an instruction may touch -/

/-- The "writes" column of R24. -/
def writesReg : Instr → Reg → Prop
  | .clear, _ | .ret, _ | .machineSubroutine _, _ | .jump _, _ | .call _, _ => False
  | .skipEqualImmediate _ _, _ | .skipNotEqualImmediate _ _, _ | .skipEqualRegister _ _, _ => False
  | .skipNotEqualRegister _ _, _ | .loadIndex _, _ | .jumpAdd _, _ => False
  | .loadImmediate x _, k | .addImmediate x _, k | .loadRegister x _, k => k = x
  | .or x _, k | .and x _, k | .xor x _, k | .loadRandom x _, k => k = x
  | .addRegister x _, k | .subRegisterXY x _, k | .subRegisterYX x _, k => k = x ∨ k = 15
  | .shiftRight x _, k | .shiftLeft x _, k => k = x ∨ k = 15
  | .draw _ _ _, k => k = 15
  | .skipKeyPressed _, _ | .skipKeyNotPressed _, _ => False
  | .loadDelay x, k | .waitForKey x, k => k = x
  | .setDelay _, _ | .setSound _, _ | .addIndex _, _ | .loadFont _, _ | .storeBCD _, _ | .storeRegisters _, _ => False
  | .loadRegisters x, k => k ≤ x

/-- The "reads" column of R24. -/
def readsReg : Instr → Reg → Prop
  | .clear, _ | .ret, _ | .machineSubroutine _, _ | .jump _, _ | .call _, _ => False
  | .skipEqualImmediate x _, k | .skipNotEqualImmediate x _, k => k = x
  | .skipEqualRegister x y, k | .skipNotEqualRegister x y, k => k = x ∨ k = y
  | .loadImmediate _ _, _ | .loadRandom _ _, _ | .loadIndex _, _ => False
  | .addImmediate x _, k => k = x
  | .loadRegister _ y, k => k = y
  | .or x y, k | .and x y, k | .xor x y, k => k = x ∨ k = y
  | .addRegister x y, k | .subRegisterXY x y, k | .subRegisterYX x y, k => k = x ∨ k = y
  | .shiftRight _ y, k | .shiftLeft _ y, k => k = y
  | .jumpAdd _, k => k = 0
  | .draw x y _, k => k = x ∨ k = y
  | .skipKeyPressed x, k | .skipKeyNotPressed x, k => k = x
  | .loadDelay _, _ | .waitForKey _, _ => False
  | .setDelay x, k | .setSound x, k | .addIndex x, k | .loadFont x, k | .storeBCD x, k => k = x
  | .storeRegisters x, k => k ≤ x
  | .loadRegisters _, _ => False

/-- Two input sets agree in what the instruction reads of them: `CXNN` the draw, `EX9E` and `EXA1` the current keys, `FX0A`
both key states, every other instruction nothing (R34, R210). -/
def sameInputsFor : Instr → CycleInput → CycleInput → Prop
  | .loadRandom _ _, a, b => a.rnd = b.rnd
  | .skipKeyPressed _, a, b | .skipKeyNotPressed _, a, b => a.current = b.current
  | .waitForKey _, a, b => a.current = b.current ∧ a.previous = b.previous
  | .clear, _, _ | .ret, _, _ | .machineSubroutine _, _, _ | .jump _, _, _ | .call _, _, _ => True
  | .skipEqualImmediate _ _, _, _ | .skipNotEqualImmediate _ _, _, _ | .skipEqualRegister _ _, _, _ => True
  | .loadImmediate _ _, _, _ | .addImmediate _ _, _, _ | .loadRegister _ _, _, _ => True
  | .or _ _, _, _ | .and _ _, _, _ | .xor _ _, _, _ | .addRegister _ _, _, _ | .subRegisterXY _ _, _, _ => True
  | .shiftRight _ _, _, _ | .subRegisterYX _ _, _, _ | .shiftLeft _ _, _, _ => True
  | .skipNotEqualRegister _ _, _, _ | .loadIndex _, _, _ | .jumpAdd _, _, _ | .draw _ _ _, _, _ => True
  | .loadDelay _, _, _ | .setDelay _, _, _ | .setSound _, _, _ | .addIndex _, _, _ | .loadFont _, _, _ => True
  | .storeBCD _, _, _ | .storeRegisters _, _, _ | .loadRegisters _, _, _ => True

/-- The execute error an instruction raises in a state, by the table of R230; `none` where it raises none. -/
def executeError (s : State) : Instr → Option Fault
  | .machineSubroutine nnn => some (.unknownMachineSubroutine nnn)
  | .ret => if s.sp.val = 0 then some .emptyStackReturn else none
  | .call _ => if s.sp.val = 12 then some .stackOverflow else none
  | .draw _ _ n => if s.i.toNat + n.toNat > 4096 then some (.spriteOutOfBounds s.i n) else none
  | .storeBCD _ => if s.i.toNat + 3 > 4096 then some (.memoryOutOfBounds s.i 3) else none
  | .storeRegisters x | .loadRegisters x =>
    if s.i.toNat + x.val + 1 > 4096 then some (.memoryOutOfBounds s.i (x.val + 1)) else none
  | .skipKeyPressed x | .skipKeyNotPressed x =>
    if (s.reg x).toNat > 0xF then some (.keyIndexOutOfRange (s.reg x)) else none
  | .clear | .jump _ | .skipEqualImmediate _ _ | .skipNotEqualImmediate _ _ | .skipEqualRegister _ _ => none
  | .loadImmediate _ _ | .addImmediate _ _ | .loadRegister _ _ | .or _ _ | .and _ _ | .xor _ _ => none
  | .addRegister _ _ | .subRegisterXY _ _ | .shiftRight _ _ | .subRegisterYX _ _ | .shiftLeft _ _ => none
  | .skipNotEqualRegister _ _ | .loadIndex _ | .jumpAdd _ | .loadRandom _ _ => none
  | .loadDelay _ | .waitForKey _ | .setDelay _ | .setSound _ | .addIndex _ | .loadFont _ => none

/-- The pc outcomes the table of R103 allows an instruction, from pc to pc'. -/
def pcOutcome (s : State) : Instr → Word → Prop
  | .jump nnn, p | .call nnn, p => p.toNat = nnn.toNat
  | .jumpAdd nnn, p => p.toNat = nnn.toNat + (s.reg 0).toNat
  | .ret, p => ∃ k : Fin 12, k.val + 1 = s.sp.val ∧ p = s.stack[k] + 2#16
  | .machineSubroutine _, _ => False
  | .skipEqualImmediate _ _, p | .skipNotEqualImmediate _ _, p => p = s.pc + 2#16 ∨ p = s.pc + 4#16
  | .skipEqualRegister _ _, p | .skipNotEqualRegister _ _, p => p = s.pc + 2#16 ∨ p = s.pc + 4#16
  | .skipKeyPressed _, p | .skipKeyNotPressed _, p => p = s.pc + 2#16 ∨ p = s.pc + 4#16
  | .waitForKey _, p => p = s.pc + 2#16 ∨ p = s.pc
  | .clear, p | .loadImmediate _ _, p | .addImmediate _ _, p | .loadRegister _ _, p => p = s.pc + 2#16
  | .or _ _, p | .and _ _, p | .xor _ _, p | .addRegister _ _, p | .subRegisterXY _ _, p => p = s.pc + 2#16
  | .shiftRight _ _, p | .subRegisterYX _ _, p | .shiftLeft _ _, p => p = s.pc + 2#16
  | .loadIndex _, p | .loadRandom _ _, p | .draw _ _ _, p => p = s.pc + 2#16
  | .loadDelay _, p | .setDelay _, p | .setSound _, p | .addIndex _, p | .loadFont _, p => p = s.pc + 2#16
  | .storeBCD _, p | .storeRegisters _, p | .loadRegisters _, p => p = s.pc + 2#16

/-- `FX0A` finds no falling edge, so it writes nothing (R215). -/
def State.stalls (s : State) (i : Instr) : Prop :=
  (∃ x, i = .waitForKey x) ∧ ∀ k : Key, ¬ (s.input.previous[k] = true ∧ s.input.current[k] = false)

/-- The instructions that store to memory (R51). -/
def storesMemory (i : Instr) : Prop := (∃ x, i = .storeBCD x) ∨ ∃ x, i = .storeRegisters x

/-- The instructions that draw on the framebuffer (R38). -/
def drawsScreen (i : Instr) : Prop := i = .clear ∨ ∃ x y n, i = .draw x y n

/-- The instructions that use the call stack (R31). -/
def usesStack (i : Instr) : Prop := i = .ret ∨ ∃ nnn, i = .call nnn

/-! ## Memory after a store -/

/-- The byte at address a after `FX33`: hundreds, tens and ones of VX at I, I + 1, I + 2, every other byte as before (R175). -/
def State.byteAfterBCD (s : State) (x : Reg) (a : Nat) : Byte :=
  if a = s.effectiveAddress 0 then BitVec.ofNat 8 ((s.reg x).toNat / 100)
  else if a = s.effectiveAddress 1 then BitVec.ofNat 8 ((s.reg x).toNat / 10 % 10)
  else if a = s.effectiveAddress 2 then BitVec.ofNat 8 ((s.reg x).toNat % 10)
  else s.mem.read a

/-- The byte at address a after `FX55`: Vk at I + k for k up to x, every other byte as before (R176). -/
def State.byteAfterRegisters (s : State) (x : Reg) (a : Nat) : Byte :=
  if s.effectiveAddress 0 ≤ a ∧ a ≤ s.effectiveAddress x.val then s.reg (Fin.ofNat 16 (a - s.effectiveAddress 0))
  else s.mem.read a

/-! ## The sprite on the screen -/

/-- The sprite bit that DXYN lays over the pixel (px, py): the anchor wraps once, nothing wraps after it, row r of the
sprite is the byte at I + r, and bit 7 of a row is its leftmost column (R193 to R195, R199). -/
def spriteBit (s : State) (x y : Reg) (n : Nibble) (px py : Nat) : Bool :=
  let x0 := (s.reg x).toNat % 64
  let y0 := (s.reg y).toNat % 32
  decide (x0 ≤ px ∧ px < x0 + 8 ∧ y0 ≤ py ∧ py < y0 + n.toNat) &&
    (s.mem.read (s.effectiveAddress (py - y0))).getLsbD (7 - (px - x0))

/-! ## The invariants of a run -/

/-- Memory is in its canonical form. -/
def State.memoryCanonical (s : State) : Prop := s.mem.wf = true

/-- pc and the return addresses in use never come near 2^16: no pc above 0x10FE (D4), and every entry in use is the
address of a call that was fetched, so at most 0xFFE (R33, R101). -/
def State.pcInRange (s : State) : Prop :=
  s.pc.toNat ≤ 0x10FE ∧ ∀ k : Fin 12, k.val < s.sp.val → s.stack[k].toNat ≤ 0xFFE

/-- The host's next transaction is a cycle: a pending one is the oldest, or none is pending and no tick is drawn before the next. -/
def State.cycleIsNext (s : State) : Prop :=
  (∃ inp ts, s.host = .cycle inp :: ts) ∨ (s.host = [] ∧ Config.freeTicks s.draws = 0)

/-- `n` steps from `s`, each one answering a next state, end in `t`. -/
def State.reachesIn (s : State) : Nat → State → Prop
  | 0, t => t = s
  | n + 1, t => ∃ u, step s = .next u ∧ u.reachesIn n t

end Sys2Proof.Machine
end

