-- ==== Sys2Proof/Certificates/Slice0/Obligations.lean ====
section
/-! DEFINITION. The statements for the provers. Each docstring names the rule of the spec it formalises. -/

open Sys2Proof Sys2Proof.Machine

/-! ## Encoding -/

/-- Every well-formed instruction decodes from its own word, from the two bytes of that word in memory order, whatever
follows them (95_test_vectors.md S1: the documented encodings "round-trip to the expected variant and operand values"). -/
def Obligations.DecodeOfEncodeIsTheInstruction : Prop :=
  ∀ i : Instr, i.wellFormed = true →
    decode (encode i) = .ok i ∧ ∀ rest, decodeBytes (bytesOfWord (encode i) ++ rest) = .ok (i, rest)

/-- Every legal word is the encoding of what it decodes to, so no bit of a word is ignored and "two different words never
decode to the same instruction with the same operands" (30_encoding.md R79, which the spec marks as derived). -/
def Obligations.EncodeOfDecodeIsTheWord : Prop :=
  ∀ (w : Word) (i : Instr), decode w = .ok i → encode i = w ∧ i.wellFormed = true

/-- R74: for every word exactly one of an instruction and `UnknownInstruction`, which carries the word. -/
def Obligations.EveryWordDecodesOrIsUnknown : Prop :=
  ∀ w : Word, ((∃ i, decode w = .ok i) ∧ decode w ≠ .error (.unknownInstruction w)) ∨
    (decode w = .error (.unknownInstruction w) ∧ ∀ i, decode w ≠ .ok i)

/-- 30_encoding.md R77: the illegal words are exactly the five listed groups (the opcode values are the spec's general
knowledge, G1). -/
def Obligations.IllegalWordsAreTheListedOnes : Prop :=
  ∀ w : Word, decode w = .error (.unknownInstruction w) ↔
    (w.toNat / 0x1000 = 0x5 ∧ w.toNat % 0x10 ≠ 0) ∨
    (w.toNat / 0x1000 = 0x9 ∧ w.toNat % 0x10 ≠ 0) ∨
    (w.toNat / 0x1000 = 0x8 ∧ w.toNat % 0x10 ∈ [0x8, 0x9, 0xA, 0xB, 0xC, 0xD, 0xF]) ∨
    (w.toNat / 0x1000 = 0xE ∧ w.toNat % 0x100 ∉ [0x9E, 0xA1]) ∨
    (w.toNat / 0x1000 = 0xF ∧ w.toNat % 0x100 ∉ [0x07, 0x0A, 0x15, 0x18, 0x1E, 0x29, 0x33, 0x55, 0x65])

/-- The decode examples of 30_encoding.md R81, one word or more of every family, as the spec writes them (R81 is marked as derived, and
the opcode values are its general knowledge, G1: log entry 6). -/
def Obligations.SpecDecodeExamples : Prop :=
  decode 0x00E0#16 = .ok .clear ∧ decode 0x00EE#16 = .ok .ret ∧
  decode 0x0000#16 = .ok (.machineSubroutine 0x000#12) ∧ decode 0x01E0#16 = .ok (.machineSubroutine 0x1E0#12) ∧
  decode 0x0123#16 = .ok (.machineSubroutine 0x123#12) ∧ decode 0x1ABC#16 = .ok (.jump 0xABC#12) ∧
  decode 0x5120#16 = .ok (.skipEqualRegister 1 2) ∧ decode 0x5121#16 = .error (.unknownInstruction 0x5121#16) ∧
  decode 0x8AB4#16 = .ok (.addRegister 0xA 0xB) ∧ decode 0x8AB8#16 = .error (.unknownInstruction 0x8AB8#16) ∧
  decode 0x8ABE#16 = .ok (.shiftLeft 0xA 0xB) ∧ decode 0x9AB0#16 = .ok (.skipNotEqualRegister 0xA 0xB) ∧
  decode 0x9AB1#16 = .error (.unknownInstruction 0x9AB1#16) ∧ decode 0xD125#16 = .ok (.draw 1 2 5#4) ∧
  decode 0xD120#16 = .ok (.draw 1 2 0#4) ∧ decode 0xE39E#16 = .ok (.skipKeyPressed 3) ∧
  decode 0xE39F#16 = .error (.unknownInstruction 0xE39F#16) ∧ decode 0xF50A#16 = .ok (.waitForKey 5) ∧
  decode 0xF565#16 = .ok (.loadRegisters 5) ∧ decode 0xF566#16 = .error (.unknownInstruction 0xF566#16)

/-! ## The step -/

/-- When a cycle is pending in front and the word mem[pc] * 256 + mem[pc + 1], at any parity of pc, decodes to i, the step is the
execution of i on that cycle's inputs. With nothing pending the step is that of the drawn calls, a free number of ticks and then a
cycle on free inputs (20_memory.md R57, R58; 40_cycle.md R100, R101; that the host's calls stand in a list, and are drawn where it is
empty, is the model's choice, log entries 1 and 2). -/
def Obligations.StepRunsTheDecodedInstruction : Prop :=
  ∀ (s : State) (w : Word) (i : Instr), s.pc.toNat + 2 ≤ 4096 →
    w.toNat = (s.mem.read s.pc.toNat).toNat * 256 + (s.mem.read (s.pc.toNat + 1)).toNat → decode w = .ok i →
    (∀ inp ts, s.host = .cycle inp :: ts → step s = exec i { s with input := inp, host := ts }) ∧
    (s.host = [] → step s = step { s with
      host := ticksThenCycle (Config.freeTicks s.draws) (freeInput s.draws) [], draws := s.draws + 1 })

/-- A cycle whose fetch would pass 4096 fails with `FetchOutOfBounds(pc)`, and one that fetches an illegal word
mem[pc] * 256 + mem[pc + 1] fails with `UnknownInstruction` of that word (40_cycle.md R101, R102; 60_exceptions.md R233;
the spec's decisions D2, D24). -/
def Obligations.FetchErrorThenDecodeError : Prop :=
  ∀ s : State, s.cycleIsNext →
    (s.pc.toNat + 2 > 4096 → step s = .fault (.fetchOutOfBounds s.pc)) ∧
    (∀ w : Word, s.pc.toNat + 2 ≤ 4096 →
      w.toNat = (s.mem.read s.pc.toNat).toNat * 256 + (s.mem.read (s.pc.toNat + 1)).toNat →
      decode w = .error (.unknownInstruction w) → step s = .fault (.unknownInstruction w))

/-- A pending tick is a step of its own that changes the two timers and nothing else of the core (R245, R236; that ticks
are pending transactions is the model's choice, log entry 1). -/
def Obligations.PendingTickStepsTheTimersOnly : Prop :=
  ∀ (s : State) (ts : List Transaction), s.host = .updateTimers :: ts →
    ∃ t, step s = .next t ∧ t = { s with delay := t.delay, sound := t.sound, host := ts } ∧
      t.delay.toNat = s.delay.toNat - 1 ∧ t.sound.toNat = s.sound.toNat - 1 ∧ ∀ a, t.mem.read a = s.mem.read a

/-- The execute errors are exactly those of the table of 60_exceptions.md R230, each under its condition, and in every other
state every instruction completes (the conditions of codes 4, 6, 8 are the spec's decisions D6, D19, D14). -/
def Obligations.ExecuteErrorsExactlyAsListed : Prop :=
  ∀ (i : Instr) (s : State),
    (∀ e, executeError s i = some e → exec i s = .fault e) ∧
    (executeError s i = none → ∃ t, exec i s = .next t)

/-- No step is refused: every cycle ends in a next state or in one of the eight errors (60_exceptions.md R230, R232). -/
def Obligations.NoStepIsRefused : Prop := ∀ (s : State) (r : Refusal), step s ≠ .refused r

/-- 40_cycle.md R106, R107 (the spec's decision D5): a failed cycle leaves the whole state as it was, and a further cycle,
whatever its keys and its draw, fails again with the same error. -/
def Obligations.FailedCycleChangesNothingAndRepeats : Prop :=
  ∀ (s t : State) (inp inp' : CycleInput) (e : Fault), transact (.cycle inp) s = (t, .error e) →
    t = s ∧ transact (.cycle inp') t = (s, .error e)

/-- A step on a pending transaction is that transaction of the host: a success gives its state, a failure gives its error
(00_scope.md R6; 70_reset_and_hazards.md R273, the spec's decision D30). -/
def Obligations.StepIsTheHostsTransaction : Prop :=
  ∀ (s : State) (x : Transaction) (ts : List Transaction), s.host = x :: ts →
    (∀ t, step s = .next t ↔ transact x (s.setHost ts) = (t, .ok)) ∧
    (∀ e, step s = .fault e ↔ transact x (s.setHost ts) = (s.setHost ts, .error e))

/-- The inputs of an earlier cycle are no state of the core: a cycle does not depend on what the model keeps of them, and a tick
only carries them on (10_state.md R36, R39). -/
def Obligations.StepForgetsEarlierInputs : Prop :=
  ∀ (s : State) (inp : CycleInput),
    (s.cycleIsNext → step (s.setInput inp) = step s) ∧
    (¬ s.cycleIsNext → ∃ t, step s = .next t ∧ step (s.setInput inp) = .next (t.setInput inp))

/-! ## Invariants and reset -/

/-- Every step keeps memory in its canonical form: rising addresses inside 0x000..0xFFF, one cell an address, none that repeats the
reset contents. That form is the model's own; that no step writes outside the 4096 bytes is R37, R50, R53. -/
def Obligations.StepKeepsMemoryCanonical : Prop :=
  ∀ s t : State, s.memoryCanonical → step s = .next t → t.memoryCanonical

/-- Every step keeps pc at or below 0x10FE and every return address in use at or below 0xFFE, so 16-bit pc arithmetic never
wraps in a run (92_eei_decisions.md D4: "no reachable pc exceeds 0x10FE, far below 2^16"). -/
def Obligations.StepKeepsPcInRange : Prop :=
  ∀ s t : State, s.pcInRange → step s = .next t → t.pcInRange

/-- The reset state meets both invariants. -/
def Obligations.ResetMeetsTheInvariants : Prop := State.reset.memoryCanonical ∧ State.reset.pcInRange

/-- The reset state of 70_reset_and_hazards.md R262: pc = 0x200 and memory are the source's, the zeros of V, I, the stack
pointer, the stack, the timers and the screen are the spec's decision D20 (log entry 5), and the font bytes are the default of D28 (log
entry 7). It is what `construct` makes of the default font and an empty program. -/
def Obligations.ResetStateIsAsConstructed : Prop :=
  State.reset.pc = 0x200#16 ∧ (∀ x, State.reset.reg x = 0#8) ∧ State.reset.i = 0#16 ∧ State.reset.sp = 0 ∧
  (∀ k : Fin 12, State.reset.stack[k] = 0#16) ∧ State.reset.delay = 0#8 ∧ State.reset.sound = 0#8 ∧
  (∀ x y, pixel State.reset.fb x y = false) ∧
  (∀ a, 0x050 ≤ a → State.reset.mem.read a = 0#8) ∧
  State.reset.mem.readBytes 0x000 80 = defaultFont ∧ defaultFont.length = 80 ∧
  ∀ font : Vector Byte 80, font.toList = defaultFont → State.construct font [] = .ok State.reset

/-- `construct` (70_reset_and_hazards.md R260, R261; D20, D27, D28): a program of at most 3584 bytes is loaded verbatim at
0x200, the font at 0, zero elsewhere, everything else as after reset; a longer one is `ProgramTooLarge`. -/
def Obligations.ConstructLoadsFontAndProgram : Prop :=
  ∀ (font : Vector Byte 80) (program : List Byte),
    (program.length ≤ 3584 → ∃ s, State.construct font program = .ok s ∧ s = { State.reset with mem := s.mem } ∧
      s.memoryCanonical ∧
      (∀ k : Fin 80, s.mem.read k.val = font[k]) ∧
      (∀ a, 80 ≤ a → a < 0x200 → s.mem.read a = 0#8) ∧
      (∀ k (h : k < program.length), s.mem.read (0x200 + k) = program[k]) ∧
      (∀ a, 0x200 + program.length ≤ a → s.mem.read a = 0#8)) ∧
    (program.length > 3584 → State.construct font program = .error (.programTooLarge program.length))

/-! ## Rules over all instructions -/

/-- 10_state.md R24, the column "writes": an instruction leaves every register outside it as it was (which instructions write
VF is the spec's decisions D9, D10, D12). -/
def Obligations.RegistersChangeOnlyAsTheTableSays : Prop :=
  ∀ (i : Instr) (s t : State) (k : Reg), exec i s = .next t → ¬ writesReg i k → t.reg k = s.reg k

/-- 10_state.md R24 (which the spec marks as derived), the column "reads": a register outside it has no influence. With any value put
into it before, the instruction ends the same way, with the same state in every other field and register; where the instruction
writes that register too (the shifts' VX, R150, R152) it takes the same value, and where it does not (or is an `FX0A` that finds no
falling edge) it keeps the value put into it. -/
def Obligations.UnreadRegistersHaveNoInfluence : Prop :=
  ∀ (i : Instr) (s : State) (k : Reg) (b : Byte), ¬ readsReg i k →
    (∀ t, exec i s = .next t → ∃ t', exec i (s.setReg k b) = .next t' ∧ t' = { t with v := t'.v } ∧
      (∀ j, j ≠ k → t'.reg j = t.reg j) ∧
      (writesReg i k → ¬ s.stalls i → t'.reg k = t.reg k) ∧ (¬ writesReg i k ∨ s.stalls i → t'.reg k = b)) ∧
    (∀ e, exec i s = .fault e → exec i (s.setReg k b) = .fault e)

/-- 10_state.md R34, R36, 45_keys_timers.md R210 (with the spec's decisions D21, D37): only `CXNN` reads
the draw, only `EX9E`, `EXA1` and `FX0A` read keys, and each reads only what it names. -/
def Obligations.InputsReachOnlyTheirInstructions : Prop :=
  ∀ (i : Instr) (s : State) (inp : CycleInput), sameInputsFor i s.input inp →
    (∀ t, exec i s = .next t → exec i (s.setInput inp) = .next (t.setInput inp)) ∧
    (∀ e, exec i s = .fault e → exec i (s.setInput inp) = .fault e)

/-- 20_memory.md R51 (which the spec marks as derived): only `FX33` and `FX55` write memory; every other
instruction leaves every byte as it was. -/
def Obligations.OnlyStoresWriteMemory : Prop :=
  ∀ (i : Instr) (s t : State), exec i s = .next t → ¬ storesMemory i → ∀ a, t.mem.read a = s.mem.read a

/-- 10_state.md R38: the framebuffer "is written only by `00E0` and `DXYN`". -/
def Obligations.OnlyClearAndDrawWriteTheScreen : Prop :=
  ∀ (i : Instr) (s t : State), exec i s = .next t → ¬ drawsScreen i → ∀ x y, pixel t.fb x y = pixel s.fb x y

/-- 10_state.md R31: the stack "is written only by `2NNN` (push) and read only by `00EE` (pop)": no other instruction changes it or
depends on it. -/
def Obligations.OnlyCallAndReturnUseTheStack : Prop :=
  ∀ (i : Instr) (s : State) (st : Vector Word 12) (p : Fin 13), ¬ usesStack i →
    (∀ t, exec i s = .next t → t.stack = s.stack ∧ t.sp = s.sp ∧
      exec i { s with stack := st, sp := p } = .next { t with stack := st, sp := p }) ∧
    (∀ e, exec i s = .fault e → exec i { s with stack := st, sp := p } = .fault e)

/-- 10_state.md R35, 40_cycle.md R109, 60_exceptions.md R247: no instruction changes the delay timer but `FX15`, none changes the
sound timer but `FX18`, none depends on the delay timer but `FX07`, and none on the sound timer. Other timer values before give the
same outcome, each timer carried over but by the instruction that sets it; `FX07` with another sound timer likewise. -/
def Obligations.TimersChangeOnlyByTheirInstructions : Prop :=
  ∀ (i : Instr) (s : State) (d u : Byte),
    (∀ t, exec i s = .next t →
      ((∀ x, i ≠ .setDelay x) → t.delay = s.delay) ∧ ((∀ x, i ≠ .setSound x) → t.sound = s.sound) ∧
      ((∀ x, i ≠ .setDelay x) → (∀ x, i ≠ .setSound x) → (∀ x, i ≠ .loadDelay x) →
        exec i { s with delay := d, sound := u } = .next { t with delay := d, sound := u }) ∧
      (∀ x, i = .setDelay x → exec i { s with delay := d, sound := u } = .next { t with sound := u }) ∧
      (∀ x, i = .setSound x → exec i { s with delay := d, sound := u } = .next { t with delay := d }) ∧
      (∀ x, i = .loadDelay x → exec i { s with sound := u } = .next { t with sound := u })) ∧
    (∀ e, exec i s = .fault e → exec i { s with delay := d, sound := u } = .fault e)

/-- The pc outcome of every instruction is one that the table of 40_cycle.md R103 allows it (D4, D7, D11 are the spec's). -/
def Obligations.PcOutcomesAsTheTableSays : Prop :=
  ∀ (i : Instr) (s t : State), exec i s = .next t → pcOutcome s i t.pc

/-! ## Control transfer -/

/-- R120: `0NNN`, every family-0 word but 00E0 and 00EE, always fails with `UnknownMachineSubroutine(nnn)` for any address
operand, and the failed cycle writes no state, pc included. -/
def Obligations.MachineSubroutineAlwaysFails : Prop :=
  ∀ (nnn : Addr12) (s : State), exec (.machineSubroutine nnn) s = .fault (.unknownMachineSubroutine nnn) ∧
    ∀ w : Word, w.toNat = nnn.toNat → w ≠ 0x00E0#16 → w ≠ 0x00EE#16 → s.fetchWord = some w →
      ∀ inp, transact (.cycle inp) s = (s, .error (.unknownMachineSubroutine nnn))

/-- 41_control_flow.md R123 (that 1 is the high nibble of this instruction is the spec's general knowledge, G1: log entry 6): the word
1nnn sets pc to nnn, whatever its parity, and changes nothing else. -/
def Obligations.JumpSetsPc : Prop :=
  ∀ (nnn : Addr12) (s : State), decode (0x1#4 ++ nnn) = .ok (.jump nnn) ∧
    ∃ t, exec (.jump nnn) s = .next t ∧ t.pc.toNat = nnn.toNat ∧ s.onlyPc t

/-- 41_control_flow.md R125 (V0 as the offset register and the 16-bit sum are the spec's D11, G5): `BNNN` sets pc to nnn + V0,
not reduced to 12 bits, and changes nothing else. -/
def Obligations.JumpAddAddsV0 : Prop :=
  ∀ (nnn : Addr12) (s : State), ∃ t, exec (.jumpAdd nnn) s = .next t ∧ t.pc.toNat = nnn.toNat + (s.reg 0).toNat ∧
    s.onlyPc t

/-- 41_control_flow.md R124 (pushing the call's own address is the spec's D7, the overflow error D6): with fewer than 12
entries `2NNN` pushes the address of the call and jumps; every other entry stays; with 12 it fails. -/
def Obligations.CallPushesItsOwnAddress : Prop :=
  ∀ (nnn : Addr12) (s : State),
    (s.sp.val < 12 → ∃ t, exec (.call nnn) s = .next t ∧ t.pc.toNat = nnn.toNat ∧ t.sp.val = s.sp.val + 1 ∧
      (∀ k : Fin 12, t.stack[k] = if k.val = s.sp.val then s.pc else s.stack[k]) ∧ s.onlyStackPc t) ∧
    (s.sp.val = 12 → exec (.call nnn) s = .fault .stackOverflow)

/-- 41_control_flow.md R122 (D7): with an entry in use `00EE` pops the top one, leaves the entries themselves as they are and
goes on two bytes after the popped address; with none it fails. -/
def Obligations.ReturnPopsTheCallAddress : Prop :=
  ∀ s : State,
    (∀ k : Fin 12, s.sp.val = k.val + 1 → ∃ t, exec .ret s = .next t ∧ t.pc = s.stack[k] + 2#16 ∧ t.sp.val = k.val ∧
      t.stack = s.stack ∧ s.onlyStackPc t) ∧
    (s.sp.val = 0 → exec .ret s = .fault .emptyStackReturn)

/-- 10_state.md R33, the round trip (95_test_vectors.md S7): a call, then any one instruction that is neither a call nor a
return, then a return, gives back the stack pointer and sets pc to the instruction after the call. -/
def Obligations.CallThenReturnGoesOnAfterTheCall : Prop :=
  ∀ (nnn : Addr12) (s t u : State) (i : Instr), exec (.call nnn) s = .next t → ¬ usesStack i → exec i t = .next u →
    ∃ r, exec .ret u = .next r ∧ r.pc = s.pc + 2#16 ∧ r.sp = s.sp ∧
      ∀ k : Fin 12, k.val < s.sp.val → r.stack[k] = s.stack[k]

/-- 41_control_flow.md R126 to R129 (the conditions are the spec's general knowledge, G3): each skip adds 4 to pc when its
condition holds and 2 otherwise, and changes nothing else. -/
def Obligations.ConditionalSkips : Prop :=
  ∀ (x y : Reg) (nn : Byte) (s : State),
    (∃ t, exec (.skipEqualImmediate x nn) s = .next t ∧ s.onlyPc t ∧
      t.pc = if s.reg x = nn then s.pc + 4#16 else s.pc + 2#16) ∧
    (∃ t, exec (.skipNotEqualImmediate x nn) s = .next t ∧ s.onlyPc t ∧
      t.pc = if s.reg x = nn then s.pc + 2#16 else s.pc + 4#16) ∧
    (∃ t, exec (.skipEqualRegister x y) s = .next t ∧ s.onlyPc t ∧
      t.pc = if s.reg x = s.reg y then s.pc + 4#16 else s.pc + 2#16) ∧
    (∃ t, exec (.skipNotEqualRegister x y) s = .next t ∧ s.onlyPc t ∧
      t.pc = if s.reg x = s.reg y then s.pc + 2#16 else s.pc + 4#16)

/-! ## Loads and ALU -/

/-- 42_alu.md R142 to R147, R153 and 45_keys_timers.md R213 (semantics G6, G7, G9 are the spec's general knowledge; VF
untouched by these is D9, D10): VX takes the value, computed from the operands as they were; pc + 2; nothing else changes, VF
included unless x = 0xF. -/
def Obligations.LoadsAndLogicWriteVX : Prop :=
  ∀ (x y : Reg) (nn : Byte) (s : State),
    (∃ t, exec (.loadImmediate x nn) s = .next t ∧ s.onlyRegPc t x ∧ t.pc = s.pc + 2#16 ∧ t.reg x = nn) ∧
    (∃ t, exec (.addImmediate x nn) s = .next t ∧ s.onlyRegPc t x ∧ t.pc = s.pc + 2#16 ∧
      (t.reg x).toNat = ((s.reg x).toNat + nn.toNat) % 256) ∧
    (∃ t, exec (.loadRegister x y) s = .next t ∧ s.onlyRegPc t x ∧ t.pc = s.pc + 2#16 ∧ t.reg x = s.reg y) ∧
    (∃ t, exec (.or x y) s = .next t ∧ s.onlyRegPc t x ∧ t.pc = s.pc + 2#16 ∧
      ∀ k, (t.reg x).getLsbD k = ((s.reg x).getLsbD k || (s.reg y).getLsbD k)) ∧
    (∃ t, exec (.and x y) s = .next t ∧ s.onlyRegPc t x ∧ t.pc = s.pc + 2#16 ∧
      ∀ k, (t.reg x).getLsbD k = ((s.reg x).getLsbD k && (s.reg y).getLsbD k)) ∧
    (∃ t, exec (.xor x y) s = .next t ∧ s.onlyRegPc t x ∧ t.pc = s.pc + 2#16 ∧
      ∀ k, (t.reg x).getLsbD k = ((s.reg x).getLsbD k ^^ (s.reg y).getLsbD k)) ∧
    (∃ t, exec (.loadRandom x nn) s = .next t ∧ s.onlyRegPc t x ∧ t.pc = s.pc + 2#16 ∧
      ∀ k, (t.reg x).getLsbD k = (s.input.rnd.getLsbD k && nn.getLsbD k)) ∧
    (∃ t, exec (.loadDelay x) s = .next t ∧ s.onlyRegPc t x ∧ t.pc = s.pc + 2#16 ∧ t.reg x = s.delay)

/-- 42_alu.md R148 with R141 (the flag written last, also with x = 0xF, is the spec's decision D8): VX = VX + VY modulo 256
unless x = 0xF, VF = 1 iff the sum overflows 8 bits. -/
def Obligations.AddRegisterSetsCarry : Prop :=
  ∀ (x y : Reg) (s : State), ∃ t, exec (.addRegister x y) s = .next t ∧ s.onlyRegFlagPc t x ∧ t.pc = s.pc + 2#16 ∧
    (x ≠ 15 → (t.reg x).toNat = ((s.reg x).toNat + (s.reg y).toNat) % 256) ∧
    (t.reg 15).toNat = if (s.reg x).toNat + (s.reg y).toNat > 255 then 1 else 0

/-- 42_alu.md R149, R151 with R141 (D8): VX = VX - VY, or VY - VX, modulo 256 unless x = 0xF, VF = 1 iff no borrow. -/
def Obligations.SubtractionsSetNotBorrow : Prop :=
  ∀ (x y : Reg) (s : State),
    (∃ t, exec (.subRegisterXY x y) s = .next t ∧ s.onlyRegFlagPc t x ∧ t.pc = s.pc + 2#16 ∧
      (x ≠ 15 → (t.reg x).toNat = (256 + (s.reg x).toNat - (s.reg y).toNat) % 256) ∧
      (t.reg 15).toNat = if (s.reg x).toNat ≥ (s.reg y).toNat then 1 else 0) ∧
    (∃ t, exec (.subRegisterYX x y) s = .next t ∧ s.onlyRegFlagPc t x ∧ t.pc = s.pc + 2#16 ∧
      (x ≠ 15 → (t.reg x).toNat = (256 + (s.reg y).toNat - (s.reg x).toNat) % 256) ∧
      (t.reg 15).toNat = if (s.reg y).toNat ≥ (s.reg x).toNat then 1 else 0)

/-- 42_alu.md R150, R152 with R141 (D8): VX = VY shifted by one unless x = 0xF, VF = the bit shifted out of the old VY. -/
def Obligations.ShiftsTakeVYAndSetTheBitOut : Prop :=
  ∀ (x y : Reg) (s : State),
    (∃ t, exec (.shiftRight x y) s = .next t ∧ s.onlyRegFlagPc t x ∧ t.pc = s.pc + 2#16 ∧
      (x ≠ 15 → (t.reg x).toNat = (s.reg y).toNat / 2) ∧ (t.reg 15).toNat = (s.reg y).toNat % 2) ∧
    (∃ t, exec (.shiftLeft x y) s = .next t ∧ s.onlyRegFlagPc t x ∧ t.pc = s.pc + 2#16 ∧
      (x ≠ 15 → (t.reg x).toNat = (s.reg y).toNat * 2 % 256) ∧ (t.reg 15).toNat = (s.reg y).toNat / 128)

/-! ## Index register and memory -/

/-- 43_index_memory.md R171 to R173 (semantics G8, widths D12, D13 are the spec's): the new I; VF and every other register,
memory included, unchanged; no range check. -/
def Obligations.IndexInstructionsSetI : Prop :=
  ∀ (nnn : Addr12) (x : Reg) (s : State),
    (∃ t, exec (.loadIndex nnn) s = .next t ∧ s.onlyIPc t ∧ t.pc = s.pc + 2#16 ∧ t.i.toNat = nnn.toNat) ∧
    (∃ t, exec (.addIndex x) s = .next t ∧ s.onlyIPc t ∧ t.pc = s.pc + 2#16 ∧
      t.i.toNat = (s.i.toNat + (s.reg x).toNat) % 65536) ∧
    (∃ t, exec (.loadFont x) s = .next t ∧ s.onlyIPc t ∧ t.pc = s.pc + 2#16 ∧ t.i.toNat = 5 * (s.reg x).toNat)

/-- 43_index_memory.md R175 (the error is the spec's decision D19): with I + 3 ≤ 4096 the hundreds, tens and ones digits of VX
stand at I, I + 1, I + 2, no other byte and nothing else changes; otherwise it fails. -/
def Obligations.StoreBCDWritesThreeDigits : Prop :=
  ∀ (x : Reg) (s : State),
    (s.i.toNat + 3 ≤ 4096 → ∃ t, exec (.storeBCD x) s = .next t ∧ s.onlyStoredPc t 3 ∧ t.pc = s.pc + 2#16 ∧
      (s.memoryCanonical →
        (s.reg x).toNat = 100 * (t.mem.read (s.effectiveAddress 0)).toNat +
          10 * (t.mem.read (s.effectiveAddress 1)).toNat + (t.mem.read (s.effectiveAddress 2)).toNat ∧
        (t.mem.read (s.effectiveAddress 1)).toNat ≤ 9 ∧ (t.mem.read (s.effectiveAddress 2)).toNat ≤ 9)) ∧
    (s.i.toNat + 3 > 4096 → exec (.storeBCD x) s = .fault (.memoryOutOfBounds s.i 3))

/-- 43_index_memory.md R176 (the error is D19, the width of I D31): with I + x + 1 ≤ 4096 V0 to VX stand at I to I + x, I is
advanced by x + 1, no other byte and nothing else changes; otherwise it fails. -/
def Obligations.StoreRegistersWritesTheBlock : Prop :=
  ∀ (x : Reg) (s : State),
    (s.i.toNat + x.val + 1 ≤ 4096 → ∃ t, exec (.storeRegisters x) s = .next t ∧ s.onlyStoredIPc t (x.val + 1) ∧
      t.pc = s.pc + 2#16 ∧ t.i.toNat = s.i.toNat + x.val + 1 ∧
      (s.memoryCanonical → ∀ k : Reg, k ≤ x → t.mem.read (s.effectiveAddress k.val) = s.reg k)) ∧
    (s.i.toNat + x.val + 1 > 4096 → exec (.storeRegisters x) s = .fault (.memoryOutOfBounds s.i (x.val + 1)))

/-- 43_index_memory.md R177 (the error is D19, the width of I D31): with I + x + 1 ≤ 4096 V0 to VX take the bytes at I to I + x,
I is advanced by x + 1, the registers above VX, memory and everything else stay; otherwise it fails. -/
def Obligations.LoadRegistersReadsTheBlock : Prop :=
  ∀ (x : Reg) (s : State),
    (s.i.toNat + x.val + 1 ≤ 4096 → ∃ t, exec (.loadRegisters x) s = .next t ∧ s.onlyRegsUpToIPc t x ∧
      t.pc = s.pc + 2#16 ∧ t.i.toNat = s.i.toNat + x.val + 1 ∧
      ∀ k : Reg, k ≤ x → t.reg k = s.mem.read (s.effectiveAddress k.val)) ∧
    (s.i.toNat + x.val + 1 > 4096 → exec (.loadRegisters x) s = .fault (.memoryOutOfBounds s.i (x.val + 1)))

/-- What `FX55` stores `FX65` gives back: stored with I = a, the registers overwritten at will, I set to a again, loaded, every
register up to VX is what it was (43_index_memory.md R176, R177). -/
def Obligations.LoadAfterStoreRestoresTheRegisters : Prop :=
  ∀ (x : Reg) (s t : State) (v : Vector Byte 16), s.memoryCanonical → exec (.storeRegisters x) s = .next t →
    ∃ r, exec (.loadRegisters x) { t with v := v, i := s.i } = .next r ∧ r.i = t.i ∧
      (∀ k : Reg, k ≤ x → r.reg k = s.reg k) ∧ (∀ k : Reg, x < k → r.reg k = v[k])

/-- 20_memory.md R61 (the spec's decision D25): after `FX33` or `FX55`, a cycle of any later state u whose memory is still that one
fetches, at any pc, the word that the stored bytes and the old bytes around them make, and runs it, with no barrier between. -/
def Obligations.StoredBytesAreFetchedNext : Prop :=
  ∀ (x : Reg) (s t u : State) (inp : CycleInput) (ts : List Transaction), s.memoryCanonical → u.mem = t.mem →
    u.host = .cycle inp :: ts → u.pc.toNat + 2 ≤ 4096 →
    (exec (.storeBCD x) s = .next t → ∀ i,
      decode (wordOfBytes (s.byteAfterBCD x u.pc.toNat) (s.byteAfterBCD x (u.pc.toNat + 1))) = .ok i →
      step u = exec i { u with input := inp, host := ts }) ∧
    (exec (.storeRegisters x) s = .next t → ∀ i,
      decode (wordOfBytes (s.byteAfterRegisters x u.pc.toNat) (s.byteAfterRegisters x (u.pc.toNat + 1))) = .ok i →
      step u = exec i { u with input := inp, host := ts })

/-! ## Display -/

/-- R198: the word 00E0, and no other, sets every pixel to false; VF, memory and everything else but pc stay. -/
def Obligations.ClearTurnsEveryPixelOff : Prop :=
  ∀ s : State, (∀ w, decode w = .ok .clear ↔ w = 0x00E0#16) ∧
    ∃ t, exec .clear s = .next t ∧ s.onlyScreenPc t ∧ t.pc = s.pc + 2#16 ∧ ∀ x y, pixel t.fb x y = false

/-- R192 to R196, the raster algorithm: the anchor wraps once at entry (x0, y0), sprite bits past the right and bottom edges are
clipped, every other sprite bit is XORed onto its pixel, bit 7 of a row byte leftmost, and the result says whether a pixel that was
on met a sprite bit 1; an empty sprite changes nothing and collides with nothing. -/
def Obligations.DrawSpriteIsTheRasterAlgorithm : Prop :=
  ∀ (fb : Framebuffer) (x y : Byte) (rows : List Byte) (x0 y0 : Nat), x0 = x.toNat % 64 → y0 = y.toNat % 32 →
    (rows = [] → drawSprite fb x y rows = (fb, false)) ∧
    (∀ r c (hr : r < rows.length), c < 8 → x0 + c < 64 → y0 + r < 32 →
      pixel (drawSprite fb x y rows).1 (x0 + c) (y0 + r) = (pixel fb (x0 + c) (y0 + r) ^^ rows[r].getLsbD (7 - c))) ∧
    (∀ px py, (px < x0 ∨ x0 + 8 ≤ px ∨ py < y0 ∨ y0 + rows.length ≤ py) →
      pixel (drawSprite fb x y rows).1 px py = pixel fb px py) ∧
    ((drawSprite fb x y rows).2 = true ↔
      ∃ r c, ∃ hr : r < rows.length, c < 8 ∧ x0 + c < 64 ∧ y0 + r < 32 ∧
        pixel fb (x0 + c) (y0 + r) = true ∧ rows[r].getLsbD (7 - c) = true)

/-- 44_display.md R192 to R196, R199 (operand mapping G11, VF for n = 0 D17, the check of clipped rows D18 are the spec's): with
I + n ≤ 4096 every pixel of the screen is XORed with the sprite bit over it, VF = 1 iff a pixel that was on met a sprite bit 1, and
only the screen, VF and pc change. -/
def Obligations.DrawXorsTheClippedSprite : Prop :=
  ∀ (x y : Reg) (n : Nibble) (s : State), s.i.toNat + n.toNat ≤ 4096 →
    ∃ t, exec (.draw x y n) s = .next t ∧ s.onlyScreenFlagPc t ∧ t.pc = s.pc + 2#16 ∧
      (∀ px py, px < 64 → py < 32 → pixel t.fb px py = (pixel s.fb px py ^^ spriteBit s x y n px py)) ∧
      (t.reg 15 = 1#8 ∨ t.reg 15 = 0#8) ∧
      (t.reg 15 = 1#8 ↔ ∃ px py, px < 64 ∧ py < 32 ∧ pixel s.fb px py = true ∧ spriteBit s x y n px py = true)

/-- 44_display.md R197: drawing the same sprite again at the same anchor restores the whole screen. The second draw reports a
collision iff a sprite bit 1 lies over a pixel that was off at the start; so on a cleared screen iff the sprite has a 1 bit inside
the screen (95_test_vectors.md S9). R197's own sentence leaves the cleared screen out, and R195 refutes it there: log entry 10. The
anchor registers are not VF, which the first draw writes. -/
def Obligations.DrawingTwiceRestoresTheScreen : Prop :=
  ∀ (x y : Reg) (n : Nibble) (s t : State), x ≠ 15 → y ≠ 15 → exec (.draw x y n) s = .next t →
    ∃ u, exec (.draw x y n) t = .next u ∧ u.fb = s.fb ∧
      (u.reg 15 = 1#8 ↔
        ∃ px py, px < 64 ∧ py < 32 ∧ pixel s.fb px py = false ∧ spriteBit s x y n px py = true)

/-- R205: `get_pixel` gives the pixel for x < 64 and y < 32 and the typed error for every other coordinate. -/
def Obligations.GetPixelIsBoundsChecked : Prop :=
  ∀ (s : State) (x y : Nat),
    (x < 64 → ∀ h : y < 32, s.screenPixel x y = .ok (s.fb[y].getLsbD x)) ∧
    (64 ≤ x ∨ 32 ≤ y → s.screenPixel x y = .error (.screenOutOfBounds x y))

/-- 44_display.md R206: inside the screen `set_pixel` sets its pixel and no other, outside it is the typed error. -/
def Obligations.SetPixelSetsOnePixel : Prop :=
  ∀ (fb : Framebuffer) (x y : Nat) (b : Bool),
    (x < 64 → y < 32 → ∃ fb', setPixel fb x y b = .ok fb' ∧
      ∀ px py, pixel fb' px py = if px = x ∧ py = y then b else pixel fb px py) ∧
    (64 ≤ x ∨ 32 ≤ y → setPixel fb x y b = .error (.screenOutOfBounds x y))

/-! ## Keys and timers -/

/-- 45_keys_timers.md R211, R212 (conditions G4, the error D14 are the spec's): with VX ≤ 0xF the key VX of the current snapshot
decides, `EX9E` skipping when it is down and `EXA1` when it is up, nothing else changes; with VX > 0xF both fail. -/
def Obligations.KeySkipsReadTheCurrentKeys : Prop :=
  ∀ (x : Reg) (s : State),
    (∀ k : Fin 16, (s.reg x).toNat = k.val →
      (∃ t, exec (.skipKeyPressed x) s = .next t ∧ s.onlyPc t ∧
        t.pc = if s.input.current[k] = true then s.pc + 4#16 else s.pc + 2#16) ∧
      (∃ t, exec (.skipKeyNotPressed x) s = .next t ∧ s.onlyPc t ∧
        t.pc = if s.input.current[k] = true then s.pc + 2#16 else s.pc + 4#16)) ∧
    ((s.reg x).toNat > 0xF →
      exec (.skipKeyPressed x) s = .fault (.keyIndexOutOfRange (s.reg x)) ∧
      exec (.skipKeyNotPressed x) s = .fault (.keyIndexOutOfRange (s.reg x)))

/-- 45_keys_timers.md R215 (the lowest of several keys is the spec's decision D15): without a falling edge `FX0A` changes nothing
at all, pc included; with one, VX takes the lowest key that has one and pc advances, and nothing else changes. -/
def Obligations.WaitForKeyTakesTheLowestFallingEdge : Prop :=
  ∀ (x : Reg) (s : State),
    ((∀ k : Fin 16, ¬ (s.input.previous[k] = true ∧ s.input.current[k] = false)) → exec (.waitForKey x) s = .next s) ∧
    (∀ k : Fin 16, s.input.previous[k] = true → s.input.current[k] = false →
      (∀ j : Fin 16, j < k → ¬ (s.input.previous[j] = true ∧ s.input.current[j] = false)) →
      ∃ t, exec (.waitForKey x) s = .next t ∧ s.onlyRegPc t x ∧ t.pc = s.pc + 2#16 ∧ (t.reg x).toNat = k.val)

/-- 45_keys_timers.md R216, R217 (semantics G9): `FX15` sets the delay timer and `FX18` the sound timer to VX, and nothing else
but pc changes. -/
def Obligations.TimerInstructionsSetTheTimers : Prop :=
  ∀ (x : Reg) (s : State),
    (∃ t, exec (.setDelay x) s = .next t ∧ s.onlyDelayPc t ∧ t.pc = s.pc + 2#16 ∧ t.delay = s.reg x) ∧
    (∃ t, exec (.setSound x) s = .next t ∧ s.onlySoundPc t ∧ t.pc = s.pc + 2#16 ∧ t.sound = s.reg x)

/-- R245: `update_timers` takes 1 from each timer that is above 0, leaves one at 0, and "reads and writes nothing else, never
fails". -/
def Obligations.UpdateTimersTakesOneFlooredAtZero : Prop :=
  ∀ s : State, updateTimers s = { s with delay := (updateTimers s).delay, sound := (updateTimers s).sound } ∧
    (s.delay.toNat > 0 → (updateTimers s).delay.toNat + 1 = s.delay.toNat) ∧
    (s.delay.toNat = 0 → (updateTimers s).delay.toNat = 0) ∧
    (s.sound.toNat > 0 → (updateTimers s).sound.toNat + 1 = s.sound.toNat) ∧
    (s.sound.toNat = 0 → (updateTimers s).sound.toNat = 0) ∧
    transact .updateTimers s = (updateTimers s, .ok)

/-- n ticks take n from each timer, floored at 0, and the tone sounds iff 2 or more is left (60_exceptions.md R245, R246; the
threshold 2 is the spec's decision D22; 95_test_vectors.md S12). -/
def Obligations.RepeatedTicksAndTheTone : Prop :=
  ∀ (s : State) (n : Nat), (updateTimers^[n] s).delay.toNat = s.delay.toNat - n ∧
    (updateTimers^[n] s).sound.toNat = s.sound.toNat - n ∧
    ((updateTimers^[n] s).isSoundPlaying = true ↔ n + 2 ≤ s.sound.toNat)

/-- 60_exceptions.md R245, 40_cycle.md R109 (any ratio of ticks to cycles, the spec's decision D26): whatever number n of ticks is pending
before the next cycle, and where nothing is pending the free number of them, n steps take n from each timer, floored at 0, and the
step after them executes the instruction at pc on an otherwise unchanged state. -/
def Obligations.AnyNumberOfTicksThenTheCycle : Prop :=
  ∀ (s : State) (w : Word) (i : Instr), s.pc.toNat + 2 ≤ 4096 →
    w.toNat = (s.mem.read s.pc.toNat).toNat * 256 + (s.mem.read (s.pc.toNat + 1)).toNat → decode w = .ok i →
    (∀ n inp ts, s.host = ticksThenCycle n inp ts →
      ∃ (u : State) (d e : Byte), s.reachesIn n u ∧ d.toNat = s.delay.toNat - n ∧ e.toNat = s.sound.toNat - n ∧
        step u = exec i { s with delay := d, sound := e, input := inp, host := ts }) ∧
    (s.host = [] →
      ∃ (u : State) (d e : Byte), s.reachesIn (Config.freeTicks s.draws) u ∧
        d.toNat = s.delay.toNat - Config.freeTicks s.draws ∧ e.toNat = s.sound.toNat - Config.freeTicks s.draws ∧
        step u = exec i { s with delay := d, sound := e, input := freeInput s.draws, draws := s.draws + 1 })
end

