-- ==== Sys2Proof/Laws/State.lean ====
section
/-! SUPPORT. What every update of the state leaves in every field: one lemma per field per update, so that no proof unfolds
a record update. -/

namespace Sys2Proof.Machine

/-! The parameters as numbers, for arithmetic -/

@[simp] theorem memSize_eq : Config.memSize = 4096 := rfl
@[simp] theorem numV_eq : Config.numV = 16 := rfl
@[simp] theorem numKeys_eq : Config.numKeys = 16 := rfl
@[simp] theorem iWidth_eq : Config.iWidth = 16 := rfl
@[simp] theorem pcWidth_eq : Config.pcWidth = 16 := rfl
@[simp] theorem timerWidth_eq : Config.timerWidth = 8 := rfl
@[simp] theorem progBase_eq : Config.progBase = 0x200 := rfl
@[simp] theorem maxProgram_eq : Config.maxProgram = 3584 := rfl
@[simp] theorem stackDepth_eq : Config.stackDepth = 12 := rfl
@[simp] theorem flagReg_eq : Config.flagReg = 15 := rfl
@[simp] theorem fontBase_eq : Config.fontBase = 0 := rfl
@[simp] theorem fontGlyphBytes_eq : Config.fontGlyphBytes = 5 := rfl
@[simp] theorem fontSize_eq : Config.fontSize = 80 := rfl
@[simp] theorem screenW_eq : Config.screenW = 64 := rfl
@[simp] theorem screenH_eq : Config.screenH = 32 := rfl
@[simp] theorem spriteW_eq : Config.spriteW = 8 := rfl
@[simp] theorem soundThreshold_eq : Config.soundThreshold = 2 := rfl

/-! The bounds that those numbers set on indexes and registers, for arithmetic -/

theorem reg_lt (x : Reg) : x.val < 16 := x.isLt
theorem key_lt (k : Key) : k.val < 16 := k.isLt
theorem State.sp_lt (s : State) : s.sp.val < 13 := s.sp.isLt
theorem State.pc_lt (s : State) : s.pc.toNat < 65536 := s.pc.isLt
theorem State.i_lt (s : State) : s.i.toNat < 65536 := s.i.isLt
theorem State.delay_lt (s : State) : s.delay.toNat < 256 := s.delay.isLt
theorem State.sound_lt (s : State) : s.sound.toNat < 256 := s.sound.isLt

variable (s : State)

/-! `State.setReg` -/

@[simp] theorem State.setReg_v (x : Reg) (b : Byte) : (s.setReg x b).v = s.v.set x b := rfl
@[simp] theorem State.setReg_i (x : Reg) (b : Byte) : (s.setReg x b).i = s.i := rfl
@[simp] theorem State.setReg_pc (x : Reg) (b : Byte) : (s.setReg x b).pc = s.pc := rfl
@[simp] theorem State.setReg_sp (x : Reg) (b : Byte) : (s.setReg x b).sp = s.sp := rfl
@[simp] theorem State.setReg_stack (x : Reg) (b : Byte) : (s.setReg x b).stack = s.stack := rfl
@[simp] theorem State.setReg_delay (x : Reg) (b : Byte) : (s.setReg x b).delay = s.delay := rfl
@[simp] theorem State.setReg_sound (x : Reg) (b : Byte) : (s.setReg x b).sound = s.sound := rfl
@[simp] theorem State.setReg_mem (x : Reg) (b : Byte) : (s.setReg x b).mem = s.mem := rfl
@[simp] theorem State.setReg_fb (x : Reg) (b : Byte) : (s.setReg x b).fb = s.fb := rfl
@[simp] theorem State.setReg_input (x : Reg) (b : Byte) : (s.setReg x b).input = s.input := rfl
@[simp] theorem State.setReg_host (x : Reg) (b : Byte) : (s.setReg x b).host = s.host := rfl
@[simp] theorem State.setReg_draws (x : Reg) (b : Byte) : (s.setReg x b).draws = s.draws := rfl

/-! `State.loadRegs` -/

@[simp] theorem State.loadRegs_v (bs : List Byte) : (s.loadRegs bs).v = Vector.ofFn fun k : Reg => bs.getD k.val (s.reg k) := rfl
@[simp] theorem State.loadRegs_i (bs : List Byte) : (s.loadRegs bs).i = s.i := rfl
@[simp] theorem State.loadRegs_pc (bs : List Byte) : (s.loadRegs bs).pc = s.pc := rfl
@[simp] theorem State.loadRegs_sp (bs : List Byte) : (s.loadRegs bs).sp = s.sp := rfl
@[simp] theorem State.loadRegs_stack (bs : List Byte) : (s.loadRegs bs).stack = s.stack := rfl
@[simp] theorem State.loadRegs_delay (bs : List Byte) : (s.loadRegs bs).delay = s.delay := rfl
@[simp] theorem State.loadRegs_sound (bs : List Byte) : (s.loadRegs bs).sound = s.sound := rfl
@[simp] theorem State.loadRegs_mem (bs : List Byte) : (s.loadRegs bs).mem = s.mem := rfl
@[simp] theorem State.loadRegs_fb (bs : List Byte) : (s.loadRegs bs).fb = s.fb := rfl
@[simp] theorem State.loadRegs_input (bs : List Byte) : (s.loadRegs bs).input = s.input := rfl
@[simp] theorem State.loadRegs_host (bs : List Byte) : (s.loadRegs bs).host = s.host := rfl
@[simp] theorem State.loadRegs_draws (bs : List Byte) : (s.loadRegs bs).draws = s.draws := rfl

/-! `State.setI` -/

@[simp] theorem State.setI_v (w : Word) : (s.setI w).v = s.v := rfl
@[simp] theorem State.setI_i (w : Word) : (s.setI w).i = w := rfl
@[simp] theorem State.setI_pc (w : Word) : (s.setI w).pc = s.pc := rfl
@[simp] theorem State.setI_sp (w : Word) : (s.setI w).sp = s.sp := rfl
@[simp] theorem State.setI_stack (w : Word) : (s.setI w).stack = s.stack := rfl
@[simp] theorem State.setI_delay (w : Word) : (s.setI w).delay = s.delay := rfl
@[simp] theorem State.setI_sound (w : Word) : (s.setI w).sound = s.sound := rfl
@[simp] theorem State.setI_mem (w : Word) : (s.setI w).mem = s.mem := rfl
@[simp] theorem State.setI_fb (w : Word) : (s.setI w).fb = s.fb := rfl
@[simp] theorem State.setI_input (w : Word) : (s.setI w).input = s.input := rfl
@[simp] theorem State.setI_host (w : Word) : (s.setI w).host = s.host := rfl
@[simp] theorem State.setI_draws (w : Word) : (s.setI w).draws = s.draws := rfl
@[simp] theorem State.setI_reg (w : Word) (k : Reg) : (s.setI w).reg k = s.reg k := rfl

/-! `State.setDelay` -/

@[simp] theorem State.setDelay_v (b : Byte) : (s.setDelay b).v = s.v := rfl
@[simp] theorem State.setDelay_i (b : Byte) : (s.setDelay b).i = s.i := rfl
@[simp] theorem State.setDelay_pc (b : Byte) : (s.setDelay b).pc = s.pc := rfl
@[simp] theorem State.setDelay_sp (b : Byte) : (s.setDelay b).sp = s.sp := rfl
@[simp] theorem State.setDelay_stack (b : Byte) : (s.setDelay b).stack = s.stack := rfl
@[simp] theorem State.setDelay_delay (b : Byte) : (s.setDelay b).delay = b := rfl
@[simp] theorem State.setDelay_sound (b : Byte) : (s.setDelay b).sound = s.sound := rfl
@[simp] theorem State.setDelay_mem (b : Byte) : (s.setDelay b).mem = s.mem := rfl
@[simp] theorem State.setDelay_fb (b : Byte) : (s.setDelay b).fb = s.fb := rfl
@[simp] theorem State.setDelay_input (b : Byte) : (s.setDelay b).input = s.input := rfl
@[simp] theorem State.setDelay_host (b : Byte) : (s.setDelay b).host = s.host := rfl
@[simp] theorem State.setDelay_draws (b : Byte) : (s.setDelay b).draws = s.draws := rfl
@[simp] theorem State.setDelay_reg (b : Byte) (k : Reg) : (s.setDelay b).reg k = s.reg k := rfl

/-! `State.setSound` -/

@[simp] theorem State.setSound_v (b : Byte) : (s.setSound b).v = s.v := rfl
@[simp] theorem State.setSound_i (b : Byte) : (s.setSound b).i = s.i := rfl
@[simp] theorem State.setSound_pc (b : Byte) : (s.setSound b).pc = s.pc := rfl
@[simp] theorem State.setSound_sp (b : Byte) : (s.setSound b).sp = s.sp := rfl
@[simp] theorem State.setSound_stack (b : Byte) : (s.setSound b).stack = s.stack := rfl
@[simp] theorem State.setSound_delay (b : Byte) : (s.setSound b).delay = s.delay := rfl
@[simp] theorem State.setSound_sound (b : Byte) : (s.setSound b).sound = b := rfl
@[simp] theorem State.setSound_mem (b : Byte) : (s.setSound b).mem = s.mem := rfl
@[simp] theorem State.setSound_fb (b : Byte) : (s.setSound b).fb = s.fb := rfl
@[simp] theorem State.setSound_input (b : Byte) : (s.setSound b).input = s.input := rfl
@[simp] theorem State.setSound_host (b : Byte) : (s.setSound b).host = s.host := rfl
@[simp] theorem State.setSound_draws (b : Byte) : (s.setSound b).draws = s.draws := rfl
@[simp] theorem State.setSound_reg (b : Byte) (k : Reg) : (s.setSound b).reg k = s.reg k := rfl

/-! `State.setMem` -/

@[simp] theorem State.setMem_v (m : Memory) : (s.setMem m).v = s.v := rfl
@[simp] theorem State.setMem_i (m : Memory) : (s.setMem m).i = s.i := rfl
@[simp] theorem State.setMem_pc (m : Memory) : (s.setMem m).pc = s.pc := rfl
@[simp] theorem State.setMem_sp (m : Memory) : (s.setMem m).sp = s.sp := rfl
@[simp] theorem State.setMem_stack (m : Memory) : (s.setMem m).stack = s.stack := rfl
@[simp] theorem State.setMem_delay (m : Memory) : (s.setMem m).delay = s.delay := rfl
@[simp] theorem State.setMem_sound (m : Memory) : (s.setMem m).sound = s.sound := rfl
@[simp] theorem State.setMem_mem (m : Memory) : (s.setMem m).mem = m := rfl
@[simp] theorem State.setMem_fb (m : Memory) : (s.setMem m).fb = s.fb := rfl
@[simp] theorem State.setMem_input (m : Memory) : (s.setMem m).input = s.input := rfl
@[simp] theorem State.setMem_host (m : Memory) : (s.setMem m).host = s.host := rfl
@[simp] theorem State.setMem_draws (m : Memory) : (s.setMem m).draws = s.draws := rfl
@[simp] theorem State.setMem_reg (m : Memory) (k : Reg) : (s.setMem m).reg k = s.reg k := rfl

/-! `State.setFb` -/

@[simp] theorem State.setFb_v (g : Framebuffer) : (s.setFb g).v = s.v := rfl
@[simp] theorem State.setFb_i (g : Framebuffer) : (s.setFb g).i = s.i := rfl
@[simp] theorem State.setFb_pc (g : Framebuffer) : (s.setFb g).pc = s.pc := rfl
@[simp] theorem State.setFb_sp (g : Framebuffer) : (s.setFb g).sp = s.sp := rfl
@[simp] theorem State.setFb_stack (g : Framebuffer) : (s.setFb g).stack = s.stack := rfl
@[simp] theorem State.setFb_delay (g : Framebuffer) : (s.setFb g).delay = s.delay := rfl
@[simp] theorem State.setFb_sound (g : Framebuffer) : (s.setFb g).sound = s.sound := rfl
@[simp] theorem State.setFb_mem (g : Framebuffer) : (s.setFb g).mem = s.mem := rfl
@[simp] theorem State.setFb_fb (g : Framebuffer) : (s.setFb g).fb = g := rfl
@[simp] theorem State.setFb_input (g : Framebuffer) : (s.setFb g).input = s.input := rfl
@[simp] theorem State.setFb_host (g : Framebuffer) : (s.setFb g).host = s.host := rfl
@[simp] theorem State.setFb_draws (g : Framebuffer) : (s.setFb g).draws = s.draws := rfl
@[simp] theorem State.setFb_reg (g : Framebuffer) (k : Reg) : (s.setFb g).reg k = s.reg k := rfl

/-! `State.setInput` -/

@[simp] theorem State.setInput_v (inp : CycleInput) : (s.setInput inp).v = s.v := rfl
@[simp] theorem State.setInput_i (inp : CycleInput) : (s.setInput inp).i = s.i := rfl
@[simp] theorem State.setInput_pc (inp : CycleInput) : (s.setInput inp).pc = s.pc := rfl
@[simp] theorem State.setInput_sp (inp : CycleInput) : (s.setInput inp).sp = s.sp := rfl
@[simp] theorem State.setInput_stack (inp : CycleInput) : (s.setInput inp).stack = s.stack := rfl
@[simp] theorem State.setInput_delay (inp : CycleInput) : (s.setInput inp).delay = s.delay := rfl
@[simp] theorem State.setInput_sound (inp : CycleInput) : (s.setInput inp).sound = s.sound := rfl
@[simp] theorem State.setInput_mem (inp : CycleInput) : (s.setInput inp).mem = s.mem := rfl
@[simp] theorem State.setInput_fb (inp : CycleInput) : (s.setInput inp).fb = s.fb := rfl
@[simp] theorem State.setInput_input (inp : CycleInput) : (s.setInput inp).input = inp := rfl
@[simp] theorem State.setInput_host (inp : CycleInput) : (s.setInput inp).host = s.host := rfl
@[simp] theorem State.setInput_draws (inp : CycleInput) : (s.setInput inp).draws = s.draws := rfl
@[simp] theorem State.setInput_reg (inp : CycleInput) (k : Reg) : (s.setInput inp).reg k = s.reg k := rfl

/-! `State.setHost` -/

@[simp] theorem State.setHost_v (ts : List Transaction) : (s.setHost ts).v = s.v := rfl
@[simp] theorem State.setHost_i (ts : List Transaction) : (s.setHost ts).i = s.i := rfl
@[simp] theorem State.setHost_pc (ts : List Transaction) : (s.setHost ts).pc = s.pc := rfl
@[simp] theorem State.setHost_sp (ts : List Transaction) : (s.setHost ts).sp = s.sp := rfl
@[simp] theorem State.setHost_stack (ts : List Transaction) : (s.setHost ts).stack = s.stack := rfl
@[simp] theorem State.setHost_delay (ts : List Transaction) : (s.setHost ts).delay = s.delay := rfl
@[simp] theorem State.setHost_sound (ts : List Transaction) : (s.setHost ts).sound = s.sound := rfl
@[simp] theorem State.setHost_mem (ts : List Transaction) : (s.setHost ts).mem = s.mem := rfl
@[simp] theorem State.setHost_fb (ts : List Transaction) : (s.setHost ts).fb = s.fb := rfl
@[simp] theorem State.setHost_input (ts : List Transaction) : (s.setHost ts).input = s.input := rfl
@[simp] theorem State.setHost_host (ts : List Transaction) : (s.setHost ts).host = ts := rfl
@[simp] theorem State.setHost_draws (ts : List Transaction) : (s.setHost ts).draws = s.draws := rfl
@[simp] theorem State.setHost_reg (ts : List Transaction) (k : Reg) : (s.setHost ts).reg k = s.reg k := rfl

/-! `State.commit` -/

@[simp] theorem State.commit_v (adv : Advance) : (s.commit adv).v = s.v := rfl
@[simp] theorem State.commit_i (adv : Advance) : (s.commit adv).i = s.i := rfl
@[simp] theorem State.commit_pc (adv : Advance) : (s.commit adv).pc = nextPc s.pc adv := rfl
@[simp] theorem State.commit_sp (adv : Advance) : (s.commit adv).sp = s.sp := rfl
@[simp] theorem State.commit_stack (adv : Advance) : (s.commit adv).stack = s.stack := rfl
@[simp] theorem State.commit_delay (adv : Advance) : (s.commit adv).delay = s.delay := rfl
@[simp] theorem State.commit_sound (adv : Advance) : (s.commit adv).sound = s.sound := rfl
@[simp] theorem State.commit_mem (adv : Advance) : (s.commit adv).mem = s.mem := rfl
@[simp] theorem State.commit_fb (adv : Advance) : (s.commit adv).fb = s.fb := rfl
@[simp] theorem State.commit_input (adv : Advance) : (s.commit adv).input = s.input := rfl
@[simp] theorem State.commit_host (adv : Advance) : (s.commit adv).host = s.host := rfl
@[simp] theorem State.commit_draws (adv : Advance) : (s.commit adv).draws = s.draws := rfl
@[simp] theorem State.commit_reg (adv : Advance) (k : Reg) : (s.commit adv).reg k = s.reg k := rfl

/-! `State.advanceI` -/

@[simp] theorem State.advanceI_v (x : Reg) : (s.advanceI x).v = s.v := rfl
@[simp] theorem State.advanceI_i (x : Reg) : (s.advanceI x).i = s.i + BitVec.ofNat 16 (x.val + 1) := rfl
@[simp] theorem State.advanceI_pc (x : Reg) : (s.advanceI x).pc = s.pc := rfl
@[simp] theorem State.advanceI_sp (x : Reg) : (s.advanceI x).sp = s.sp := rfl
@[simp] theorem State.advanceI_stack (x : Reg) : (s.advanceI x).stack = s.stack := rfl
@[simp] theorem State.advanceI_delay (x : Reg) : (s.advanceI x).delay = s.delay := rfl
@[simp] theorem State.advanceI_sound (x : Reg) : (s.advanceI x).sound = s.sound := rfl
@[simp] theorem State.advanceI_mem (x : Reg) : (s.advanceI x).mem = s.mem := rfl
@[simp] theorem State.advanceI_fb (x : Reg) : (s.advanceI x).fb = s.fb := rfl
@[simp] theorem State.advanceI_input (x : Reg) : (s.advanceI x).input = s.input := rfl
@[simp] theorem State.advanceI_host (x : Reg) : (s.advanceI x).host = s.host := rfl
@[simp] theorem State.advanceI_draws (x : Reg) : (s.advanceI x).draws = s.draws := rfl
@[simp] theorem State.advanceI_reg (x : Reg) (k : Reg) : (s.advanceI x).reg k = s.reg k := rfl

/-! `State.setRegFlag` -/

@[simp] theorem State.setRegFlag_v (x : Reg) (b : Byte) (c : Bool) : (s.setRegFlag x b c).v = (s.v.set x b).set 15 (flagByte c) := rfl
@[simp] theorem State.setRegFlag_i (x : Reg) (b : Byte) (c : Bool) : (s.setRegFlag x b c).i = s.i := rfl
@[simp] theorem State.setRegFlag_pc (x : Reg) (b : Byte) (c : Bool) : (s.setRegFlag x b c).pc = s.pc := rfl
@[simp] theorem State.setRegFlag_sp (x : Reg) (b : Byte) (c : Bool) : (s.setRegFlag x b c).sp = s.sp := rfl
@[simp] theorem State.setRegFlag_stack (x : Reg) (b : Byte) (c : Bool) : (s.setRegFlag x b c).stack = s.stack := rfl
@[simp] theorem State.setRegFlag_delay (x : Reg) (b : Byte) (c : Bool) : (s.setRegFlag x b c).delay = s.delay := rfl
@[simp] theorem State.setRegFlag_sound (x : Reg) (b : Byte) (c : Bool) : (s.setRegFlag x b c).sound = s.sound := rfl
@[simp] theorem State.setRegFlag_mem (x : Reg) (b : Byte) (c : Bool) : (s.setRegFlag x b c).mem = s.mem := rfl
@[simp] theorem State.setRegFlag_fb (x : Reg) (b : Byte) (c : Bool) : (s.setRegFlag x b c).fb = s.fb := rfl
@[simp] theorem State.setRegFlag_input (x : Reg) (b : Byte) (c : Bool) : (s.setRegFlag x b c).input = s.input := rfl
@[simp] theorem State.setRegFlag_host (x : Reg) (b : Byte) (c : Bool) : (s.setRegFlag x b c).host = s.host := rfl
@[simp] theorem State.setRegFlag_draws (x : Reg) (b : Byte) (c : Bool) : (s.setRegFlag x b c).draws = s.draws := rfl

/-! Reading a register back -/

/-- The spec of a register write: the written register reads as the value, every other as before. -/
@[simp] theorem State.setReg_reg (x k : Reg) (b : Byte) :
    (s.setReg x b).reg k = if k = x then b else s.reg k := by
  simp only [State.reg, State.setReg, Fin.getElem_fin, Vector.getElem_set, Fin.ext_iff, eq_comm]

/-- With x = 0xF the flag survives (R141). -/
@[simp] theorem State.setRegFlag_reg (x k : Reg) (b : Byte) (c : Bool) :
    (s.setRegFlag x b c).reg k = if k = 15 then flagByte c else if k = x then b else s.reg k := by
  simp [State.setRegFlag]

@[simp] theorem State.loadRegs_reg (bs : List Byte) (k : Reg) :
    (s.loadRegs bs).reg k = bs.getD k.val (s.reg k) := by
  simp [State.reg, State.loadRegs]

/-- Two register files are equal when every register reads the same. -/
theorem State.v_ext (a b : State) (h : ∀ k, a.reg k = b.reg k) : a.v = b.v :=
  Vector.ext fun k hk => h ⟨k, hk⟩

/-! The pc after a commit (R104) -/

@[simp] theorem nextPc_next (p : Word) : nextPc p .next = p + 2#16 := rfl
@[simp] theorem nextPc_skip (p : Word) : nextPc p .skip = p + 4#16 := rfl
@[simp] theorem nextPc_set (p t : Word) : nextPc p (.set t) = t := rfl
@[simp] theorem nextPc_stay (p : Word) : nextPc p .stay = p := rfl

/-! The call stack -/

/-- The stack is empty or has a top entry. -/
theorem State.sp_zero_or_top : s.sp.val = 0 ∨ ∃ k : Fin 12, s.sp.val = k.val + 1 := by
  have := s.sp_lt
  by_cases h : s.sp.val = 0
  · exact .inl h
  · exact .inr ⟨⟨s.sp.val - 1, by omega⟩, by simp; omega⟩

/-- The stack has room or is full. -/
theorem State.sp_room_or_full : s.sp.val < 12 ∨ s.sp.val = 12 := by
  have := s.sp_lt
  omega

/-- Everything a push can do. -/
theorem State.push_eq_some {s t : State} {a : Word} (h : s.push a = some t) :
    ∃ hsp : s.sp.val < 12, t = { s with stack := s.stack.set s.sp.val a hsp, sp := ⟨s.sp.val + 1, Nat.succ_lt_succ hsp⟩ } := by
  unfold State.push at h
  split at h
  · exact ⟨‹_›, (Option.some.inj h).symm⟩
  · cases h

/-- A push fails exactly on a full stack. -/
theorem State.push_eq_none (a : Word) : s.push a = none ↔ s.sp.val = 12 := by
  have := s.sp_lt
  unfold State.push
  split
  · rename_i h
    have h : s.sp.val < 12 := h
    exact ⟨nofun, fun _ => by omega⟩
  · rename_i h
    have h : ¬ s.sp.val < 12 := h
    exact ⟨fun _ => by omega, fun _ => rfl⟩

/-- Everything a pop can do: the top entry comes off, the entries stay. -/
theorem State.pop_eq_some {s t : State} {a : Word} (h : s.pop = some (a, t)) :
    ∃ k : Fin 12, ∃ hk : s.sp.val = k.val + 1, a = s.stack[k] ∧ t = { s with sp := ⟨k.val, Nat.lt_succ_of_lt k.isLt⟩ } := by
  unfold State.pop at h
  split at h
  · cases h
    have := s.sp_lt
    exact ⟨⟨s.sp.val - 1, by omega⟩, by simp; omega, rfl, rfl⟩
  · cases h

/-- A pop fails exactly on an empty stack. -/
theorem State.pop_eq_none : s.pop = none ↔ s.sp.val = 0 := by
  unfold State.pop
  split <;> simp_all
  intro h
  simp_all

end Sys2Proof.Machine
end

