-- ==== Sys2Proof/Laws/Decode.lean ====
section
/-! SUPPORT. The fields of an encoded word (spec/30_encoding.md R71): what each format of R76 puts in each field, how a word is
put together again from its fields, and the byte order of a word. -/

namespace Sys2Proof

variable (op n : Nibble) (nnn : Addr12) (nn : Byte) (x y : Reg)

/-! Every field and every format as a number -/

theorem opField_toNat (w : Word) : (opField w).toNat = w.toNat / 0x1000 := by
  have := w.isLt
  rw [opField, BitVec.extractLsb'_toNat, Nat.shiftRight_eq_div_pow]
  omega
theorem xField_val (w : Word) : (xField w).val = w.toNat / 0x100 % 0x10 := by
  rw [show (xField w).val = (w.extractLsb' 8 4).toNat from rfl, BitVec.extractLsb'_toNat, Nat.shiftRight_eq_div_pow]
theorem yField_val (w : Word) : (yField w).val = w.toNat / 0x10 % 0x10 := by
  rw [show (yField w).val = (w.extractLsb' 4 4).toNat from rfl, BitVec.extractLsb'_toNat, Nat.shiftRight_eq_div_pow]
theorem nField_toNat (w : Word) : (nField w).toNat = w.toNat % 0x10 := by
  rw [nField, BitVec.extractLsb'_toNat, Nat.shiftRight_zero]
theorem nnField_toNat (w : Word) : (nnField w).toNat = w.toNat % 0x100 := by
  rw [nnField, BitVec.extractLsb'_toNat, Nat.shiftRight_zero]
theorem nnnField_toNat (w : Word) : (nnnField w).toNat = w.toNat % 0x1000 := by
  rw [nnnField, BitVec.extractLsb'_toNat, Nat.shiftRight_zero]

/-- Appending bits is multiplying by a power of two and adding. -/
theorem append_toNat {a b : Nat} (u : BitVec a) (v : BitVec b) : (u ++ v).toNat = u.toNat * 2 ^ b + v.toNat := by
  rw [BitVec.toNat_append, ← Nat.shiftLeft_add_eq_or_of_lt v.isLt, Nat.shiftLeft_eq]

theorem encodeA_toNat : (encodeA op nnn).toNat = op.toNat * 0x1000 + nnn.toNat := append_toNat op nnn
theorem encodeXI_toNat : (encodeXI op x nn).toNat = (op.toNat * 0x10 + x.val) * 0x100 + nn.toNat := by
  rw [encodeXI, append_toNat, append_toNat]; rfl
theorem encodeXY_toNat :
    (encodeXY op x y n).toNat = ((op.toNat * 0x10 + x.val) * 0x10 + y.val) * 0x10 + n.toNat := by
  rw [encodeXY, append_toNat, append_toNat, append_toNat]; rfl

/-! The formats `A`, `XI` and `XY`: each field of the word is what was put there -/

@[simp] theorem opField_encodeA : opField (encodeA op nnn) = op := by
  apply BitVec.eq_of_toNat_eq
  have := nnn.isLt
  rw [opField_toNat, encodeA_toNat]; omega
@[simp] theorem nnnField_encodeA : nnnField (encodeA op nnn) = nnn := by
  apply BitVec.eq_of_toNat_eq
  have := nnn.isLt
  rw [nnnField_toNat, encodeA_toNat]; omega

@[simp] theorem opField_encodeXI : opField (encodeXI op x nn) = op := by
  apply BitVec.eq_of_toNat_eq
  have := Machine.reg_lt x; have := nn.isLt
  rw [opField_toNat, encodeXI_toNat]; omega
@[simp] theorem xField_encodeXI : xField (encodeXI op x nn) = x := by
  apply Fin.ext
  have := Machine.reg_lt x; have := nn.isLt
  rw [xField_val, encodeXI_toNat]; omega
@[simp] theorem nnField_encodeXI : nnField (encodeXI op x nn) = nn := by
  apply BitVec.eq_of_toNat_eq
  have := nn.isLt
  rw [nnField_toNat, encodeXI_toNat]; omega

@[simp] theorem opField_encodeXY : opField (encodeXY op x y n) = op := by
  apply BitVec.eq_of_toNat_eq
  have := Machine.reg_lt x; have := Machine.reg_lt y; have := n.isLt
  rw [opField_toNat, encodeXY_toNat]; omega
@[simp] theorem xField_encodeXY : xField (encodeXY op x y n) = x := by
  apply Fin.ext
  have := Machine.reg_lt x; have := Machine.reg_lt y; have := n.isLt
  rw [xField_val, encodeXY_toNat]; omega
@[simp] theorem yField_encodeXY : yField (encodeXY op x y n) = y := by
  apply Fin.ext
  have := Machine.reg_lt y; have := n.isLt
  rw [yField_val, encodeXY_toNat]; omega
@[simp] theorem nField_encodeXY : nField (encodeXY op x y n) = n := by
  apply BitVec.eq_of_toNat_eq
  have := n.isLt
  rw [nField_toNat, encodeXY_toNat]; omega

/-! A word from its fields -/

theorem encodeA_fields (w : Word) : encodeA (opField w) (nnnField w) = w := by
  apply BitVec.eq_of_toNat_eq
  rw [encodeA_toNat, opField_toNat, nnnField_toNat]; omega
theorem encodeXI_fields (w : Word) : encodeXI (opField w) (xField w) (nnField w) = w := by
  apply BitVec.eq_of_toNat_eq
  rw [encodeXI_toNat, opField_toNat, xField_val, nnField_toNat]; omega
theorem encodeXY_fields (w : Word) : encodeXY (opField w) (xField w) (yField w) (nField w) = w := by
  apply BitVec.eq_of_toNat_eq
  rw [encodeXY_toNat, opField_toNat, xField_val, yField_val, nField_toNat]; omega

/-! Byte order (R57) -/

/-- The word of two bytes is `hi * 256 + lo`. -/
theorem wordOfBytes_toNat (hi lo : Byte) : (wordOfBytes hi lo).toNat = hi.toNat * 256 + lo.toNat := append_toNat hi lo

/-- The bytes of a word in memory order decode as the word does, whatever follows them. -/
theorem decodeBytes_bytesOfWord (w : Word) (bs : List Byte) :
    decodeBytes (bytesOfWord w ++ bs) = (decode w).map fun i => (i, bs) := by
  have : wordOfBytes (w.extractLsb' 8 8) (w.extractLsb' 0 8) = w := by
    apply BitVec.eq_of_toNat_eq
    have := w.isLt
    rw [wordOfBytes_toNat, BitVec.extractLsb'_toNat, BitVec.extractLsb'_toNat, Nat.shiftRight_eq_div_pow,
      Nat.shiftRight_zero]
    omega
  simp only [bytesOfWord, List.cons_append, List.nil_append, decodeBytes, this]
  cases decode w <;> rfl

end Sys2Proof
end

