-- ==== Sys2Proof/Laws/Memory.lean ====
section
/-! SUPPORT. The laws of memory: read after write, what a write leaves alone, the canonical form that every operation keeps,
and what the bounds-checked accessors answer. -/

namespace Sys2Proof.Machine

/-- The canonical form with a smaller lower bound. -/
theorem Memory.wfFrom_mono {m : Memory} {lo lo' : Nat} (hl : lo ≤ lo') (h : Memory.wfFrom lo' m = true) :
    Memory.wfFrom lo m = true := by
  cases m with
  | nil => rfl
  | cons c m =>
    simp only [Memory.wfFrom, Bool.and_eq_true, decide_eq_true_eq, memSize_eq] at h ⊢
    exact ⟨⟨⟨by omega, h.1.1.2⟩, h.1.2⟩, h.2⟩

/-- An address below every listed one reads as the reset contents. -/
theorem Memory.read_below {m : Memory} {lo a : Nat} (h : Memory.wfFrom lo m = true) (ha : a < lo) :
    m.read a = initialByte a := by
  induction m generalizing lo with
  | nil => rfl
  | cons c m ih =>
    obtain ⟨k, b⟩ := c
    simp only [Memory.wfFrom, Bool.and_eq_true, decide_eq_true_eq, memSize_eq] at h
    rw [Memory.read, if_neg (by omega)]
    exact ih h.2 (by omega)

/-- A canonical memory lists nothing past its end. -/
theorem Memory.read_outside {m : Memory} (h : m.wf = true) {a : Nat} (ha : 4096 ≤ a) : m.read a = 0#8 := by
  have hi : initialByte a = 0#8 := by simp only [initialByte, fontBase_eq, fontSize_eq]; rw [if_neg (by omega)]
  suffices ∀ lo, Memory.wfFrom lo m = true → m.read a = initialByte a from (this 0 h).trans hi
  clear h
  induction m with
  | nil => intros; rfl
  | cons c m ih =>
    obtain ⟨k, b⟩ := c
    intro lo h
    simp only [Memory.wfFrom, Bool.and_eq_true, decide_eq_true_eq, memSize_eq] at h
    rw [Memory.read, if_neg (by omega)]
    exact ih _ h.2

theorem Memory.wfFrom_cons {m : Memory} {a : Nat} {b : Byte} (ha : a < 4096) (h : Memory.wfFrom (a + 1) m = true) :
    Memory.wfFrom a (Memory.cons a b m) = true := by
  unfold Memory.cons
  split
  · exact Memory.wfFrom_mono (by omega) h
  · simp_all [Memory.wfFrom]

theorem Memory.wfFrom_write {m : Memory} {lo a : Nat} {b : Byte} (hl : lo ≤ a) (ha : a < 4096)
    (h : Memory.wfFrom lo m = true) : Memory.wfFrom lo (m.write a b) = true := by
  induction m generalizing lo with
  | nil => exact Memory.wfFrom_mono hl (Memory.wfFrom_cons ha rfl)
  | cons c m ih =>
    obtain ⟨k, c⟩ := c
    have h0 := h
    simp only [Memory.wfFrom, Bool.and_eq_true, decide_eq_true_eq, memSize_eq] at h
    obtain ⟨⟨⟨hk, hk'⟩, hc⟩, hm⟩ := h
    simp only [Memory.write]
    split
    · refine Memory.wfFrom_mono hl (Memory.wfFrom_cons ha ?_)
      simp only [Memory.wfFrom, Bool.and_eq_true, decide_eq_true_eq, memSize_eq]
      exact ⟨⟨⟨by omega, hk'⟩, hc⟩, hm⟩
    · split
      · subst_vars
        exact Memory.wfFrom_mono hl (Memory.wfFrom_cons ha hm)
      · simp only [Memory.wfFrom, Bool.and_eq_true, decide_eq_true_eq, memSize_eq]
        exact ⟨⟨⟨hk, hk'⟩, hc⟩, ih (by omega) hm⟩

/-- A write inside memory keeps the canonical form. -/
theorem Memory.wf_write {m : Memory} (h : m.wf = true) {a : Nat} (ha : a < 4096) (b : Byte) :
    (m.write a b).wf = true := Memory.wfFrom_write (Nat.zero_le a) ha h

/-- A block write inside memory keeps the canonical form. -/
theorem Memory.wf_writeBytes {m : Memory} (h : m.wf = true) {a : Nat} {bs : List Byte} (ha : a + bs.length ≤ 4096) :
    (m.writeBytes a bs).wf = true := by
  induction bs generalizing m a with
  | nil => exact h
  | cons b bs ih =>
    simp only [List.length_cons] at ha
    exact ih (Memory.wf_write h (by omega) b) (by omega)

@[simp] theorem Memory.read_cons_self {m : Memory} {a : Nat} {b : Byte} (h : Memory.wfFrom (a + 1) m = true) :
    (Memory.cons a b m).read a = b := by
  unfold Memory.cons
  split
  · rw [Memory.read_below h (by omega)]; exact (‹b = _›).symm
  · simp [Memory.read]

theorem Memory.read_cons_other {m : Memory} {a a' : Nat} {b : Byte} (h : a' ≠ a) :
    (Memory.cons a b m).read a' = m.read a' := by
  unfold Memory.cons
  split
  · rfl
  · rw [Memory.read, if_neg (by omega)]

/-- A write leaves every other address alone. -/
theorem Memory.read_write_other {m : Memory} {a a' : Nat} (h : a' ≠ a) (b : Byte) :
    (m.write a b).read a' = m.read a' := by
  induction m with
  | nil => exact Memory.read_cons_other h
  | cons c m ih =>
    obtain ⟨k, c⟩ := c
    simp only [Memory.write]
    split
    · exact Memory.read_cons_other h
    · split
      · rw [Memory.read_cons_other h, Memory.read, if_neg (by omega)]
      · simp only [Memory.read, ih]

theorem Memory.wfFrom_read_write_self {m : Memory} {lo a : Nat} (h : Memory.wfFrom lo m = true) (b : Byte) :
    (m.write a b).read a = b := by
  induction m generalizing lo with
  | nil => exact Memory.read_cons_self rfl
  | cons c m ih =>
    obtain ⟨k, c⟩ := c
    have h0 := h
    simp only [Memory.wfFrom, Bool.and_eq_true, decide_eq_true_eq, memSize_eq] at h
    simp only [Memory.write]
    split
    · refine Memory.read_cons_self ?_
      simp only [Memory.wfFrom, Bool.and_eq_true, decide_eq_true_eq, memSize_eq]
      exact ⟨⟨⟨by omega, h.1.1.2⟩, h.1.2⟩, h.2⟩
    · split
      · subst_vars; exact Memory.read_cons_self h.2
      · rw [Memory.read, if_neg (by omega)]
        exact ih h.2

/-- A write reads back. -/
theorem Memory.read_write_self {m : Memory} (h : m.wf = true) (a : Nat) (b : Byte) : (m.write a b).read a = b :=
  Memory.wfFrom_read_write_self h b

/-- A block write leaves every address outside the block alone. -/
theorem Memory.read_writeBytes_other {m : Memory} {a a' : Nat} {bs : List Byte} (h : a' < a ∨ a + bs.length ≤ a') :
    (m.writeBytes a bs).read a' = m.read a' := by
  induction bs generalizing m a with
  | nil => rfl
  | cons b bs ih =>
    simp only [List.length_cons] at h
    rw [Memory.writeBytes, ih (by omega), Memory.read_write_other (by omega)]

/-- A block write reads back, byte by byte. -/
theorem Memory.read_writeBytes_get {m : Memory} (h : m.wf = true) {a : Nat} {bs : List Byte} (ha : a + bs.length ≤ 4096)
    {k : Nat} (hk : k < bs.length) : (m.writeBytes a bs).read (a + k) = bs[k] := by
  induction bs generalizing m a k with
  | nil => simp at hk
  | cons b bs ih =>
    simp only [List.length_cons] at ha hk
    have hw := Memory.wf_write h (a := a) (by omega) b
    cases k with
    | zero =>
      rw [Memory.writeBytes, Memory.read_writeBytes_other (by omega)]
      exact Memory.read_write_self h a b
    | succ k =>
      have := ih hw (a := a + 1) (k := k) (by omega) (by omega)
      rw [Memory.writeBytes, List.getElem_cons_succ, ← this]
      congr 1; omega

@[simp] theorem Memory.length_readBytes (m : Memory) (a n : Nat) : (m.readBytes a n).length = n := by
  induction n generalizing a with
  | zero => rfl
  | succ n ih => simp [Memory.readBytes, ih]

/-- A block read is the bytes, one by one. -/
theorem Memory.getElem_readBytes (m : Memory) (a n : Nat) {k : Nat} (hk : k < (m.readBytes a n).length) :
    (m.readBytes a n)[k] = m.read (a + k) := by
  induction n generalizing a k with
  | zero => simp [Memory.readBytes] at hk
  | succ n ih =>
    cases k with
    | zero => rfl
    | succ k =>
      simp only [Memory.readBytes, List.getElem_cons_succ]
      rw [ih]; congr 1; omega

/-- Equal memories are equal data: two canonical memories that read alike are one list. -/
theorem Memory.ext_of_read {m m' : Memory} {lo lo' : Nat} (h : Memory.wfFrom lo m = true) (h' : Memory.wfFrom lo' m' = true)
    (hr : ∀ a, m.read a = m'.read a) : m = m' := by
  induction m generalizing lo lo' m' with
  | nil =>
    cases m' with
    | nil => rfl
    | cons c m' =>
      obtain ⟨k, b⟩ := c
      have := hr k
      simp_all [Memory.wfFrom, Memory.read]
  | cons c m ih =>
    obtain ⟨k, b⟩ := c
    simp only [Memory.wfFrom, Bool.and_eq_true, decide_eq_true_eq, memSize_eq] at h
    obtain ⟨⟨_, hb⟩, hm⟩ := h
    cases m' with
    | nil =>
      have := hr k
      simp_all [Memory.read]
    | cons c' m' =>
      obtain ⟨k', b'⟩ := c'
      simp only [Memory.wfFrom, Bool.and_eq_true, decide_eq_true_eq, memSize_eq] at h'
      obtain ⟨⟨_, hb'⟩, hm'⟩ := h'
      have hk := hr k
      have hk' := hr k'
      simp only [Memory.read, if_true] at hk hk'
      have hkk : k = k' := by
        rcases lt_trichotomy k k' with hlt | heq | hgt
        · rw [if_neg (by omega), Memory.read_below hm' (by omega)] at hk
          exact absurd hk hb
        · exact heq
        · rw [if_neg (by omega), Memory.read_below hm (by omega)] at hk'
          exact absurd hk'.symm hb'
      subst hkk
      rw [if_pos rfl] at hk
      subst hk
      refine congrArg _ (ih hm hm' fun a => ?_)
      by_cases ha : a = k
      · subst ha; rw [Memory.read_below hm (by omega), Memory.read_below hm' (by omega)]
      · have := hr a
        simpa [Memory.read, Ne.symm ha] using this

/-! The accessors (R52, R53) -/

/-- Everything `get_bytes` can answer. -/
theorem Memory.getBytes_eq_some {m : Memory} {a n : Nat} {bs : List Byte} :
    m.getBytes a n = some bs ↔ a + n ≤ 4096 ∧ bs = m.readBytes a n := by
  unfold Memory.getBytes
  split <;> simp_all [eq_comm]

theorem Memory.getBytes_eq_none {m : Memory} {a n : Nat} : m.getBytes a n = none ↔ a + n > 4096 := by
  unfold Memory.getBytes
  split <;> simp_all

/-- Everything a block store can answer. -/
theorem Memory.setBytes_eq_some {m m' : Memory} {a : Nat} {bs : List Byte} :
    m.setBytes a bs = some m' ↔ a + bs.length ≤ 4096 ∧ m' = m.writeBytes a bs := by
  unfold Memory.setBytes
  split <;> simp_all [eq_comm]

theorem Memory.setBytes_eq_none {m : Memory} {a : Nat} {bs : List Byte} :
    m.setBytes a bs = none ↔ a + bs.length > 4096 := by
  unfold Memory.setBytes
  split <;> simp_all

/-- `MemWrite` is one `set` after the other at increasing addresses (R52). -/
theorem Memory.setBytes_cons {m : Memory} {a : Nat} {b : Byte} {bs : List Byte} (h : a + bs.length + 1 ≤ 4096) :
    m.setBytes a (b :: bs) = (m.set a b).bind fun m' => m'.setBytes (a + 1) bs := by
  simp only [Memory.set, Memory.setBytes, List.length_cons, memSize_eq]
  rw [if_neg (by omega), if_neg (by omega), Option.bind_some, if_neg (by omega)]
  rfl

/-- `MemRead` is one `get` after the other (R52). -/
theorem Memory.getBytes_succ {m : Memory} {a n : Nat} (h : a + n + 1 ≤ 4096) :
    m.getBytes a (n + 1) = (m.get a).bind fun b => (m.getBytes (a + 1) n).map (b :: ·) := by
  simp only [Memory.get, Memory.getBytes, memSize_eq]
  rw [if_neg (by omega), if_neg (by omega), Option.bind_some, if_neg (by omega)]
  rfl

/-- Memory after reset is canonical. -/
theorem Memory.wf_reset : State.reset.mem.wf = true := rfl

end Sys2Proof.Machine
end

