-- ==== Sys2Proof/Laws/Exec.lean ====
section
/-! SUPPORT. The meanings that check something first, each said once: the state they give where the check passes, the error where
it fails. The other meanings are one equation by definition. -/

namespace Sys2Proof.Machine

@[simp] theorem flagByte_toNat (c : Bool) : (flagByte c).toNat = if c = true then 1 else 0 := by cases c <;> rfl

@[simp] theorem bcdDigits_length (b : Byte) : (bcdDigits b).length = 3 := rfl

@[simp] theorem State.regsUpTo_length (s : State) (x : Reg) : (s.regsUpTo x).length = x.val + 1 := by
  simp [State.regsUpTo]

/-- The bytes of a block store are V0 to Vx. -/
theorem State.regsUpTo_getElem (s : State) (x : Reg) {k : Nat} (hk : k < (s.regsUpTo x).length) :
    (s.regsUpTo x)[k] = s.reg ⟨k, lt_of_lt_of_le (hk.trans_eq (s.regsUpTo_length x)) x.isLt⟩ := by
  simp [State.regsUpTo, State.reg]

/-- Everything a conditional skip does (R103). -/
theorem skipIf_spec (c : Bool) (s : State) :
    ∃ t, skipIf c s = .next t ∧ s.onlyPc t ∧ t.pc = if c = true then s.pc + 4#16 else s.pc + 2#16 :=
  ⟨_, rfl, ⟨rfl, rfl, fun _ => rfl⟩, by cases c <;> rfl⟩

/-- Everything a plain register write does. -/
theorem writeReg_spec (x : Reg) (b : Byte) (s : State) :
    ∃ t, writeReg x b s = .next t ∧ s.onlyRegPc t x ∧ t.pc = s.pc + 2#16 ∧ t.reg x = b :=
  ⟨_, rfl, ⟨rfl, fun k hk => by simp [hk], rfl, fun _ => rfl⟩, rfl, by simp⟩

/-- Everything a register write with a flag does: with x = 0xF the flag survives (R141). -/
theorem writeRegFlag_spec (x : Reg) (b : Byte) (c : Bool) (s : State) :
    ∃ t, writeRegFlag x b c s = .next t ∧ s.onlyRegFlagPc t x ∧ t.pc = s.pc + 2#16 ∧ (x ≠ 15 → t.reg x = b) ∧
      t.reg 15 = flagByte c :=
  ⟨_, rfl, ⟨rfl, fun k hk h => by simp [hk, h], rfl, fun _ => rfl⟩, rfl, fun h => by simp [h], by simp⟩

/-- `00EE` on a stack in use (R122). -/
theorem execRet_some {s : State} (k : Fin 12) (hk : s.sp.val = k.val + 1) :
    execRet s = .next (({ s with sp := ⟨k.val, by omega⟩ } : State).commit (.set (s.stack[k] + 2#16))) := by
  unfold execRet
  split
  · rename_i h; rw [State.pop_eq_none] at h; omega
  · rename_i t s' h
    obtain ⟨j, hj, rfl, rfl⟩ := State.pop_eq_some h
    obtain rfl : j = k := Fin.ext (by omega)
    rfl

/-- `00EE` on an empty stack (R122). -/
theorem execRet_none {s : State} (h : s.sp.val = 0) : execRet s = .fault .emptyStackReturn := by
  rw [execRet, State.pop_eq_none s |>.mpr h]; rfl

/-- `2NNN` below the capacity (R124). -/
theorem execCall_some {s : State} (h : s.sp.val < 12) (nnn : Addr12) :
    execCall nnn s = .next (({ s with stack := s.stack.set s.sp.val s.pc h, sp := ⟨s.sp.val + 1, Nat.succ_lt_succ h⟩ } : State).commit
      (.set (zextAddr nnn))) := by
  simp [execCall, State.push, h]

/-- `2NNN` on a full stack (R124). -/
theorem execCall_none {s : State} (h : s.sp.val = 12) (nnn : Addr12) : execCall nnn s = .fault .stackOverflow := by
  rw [execCall, (State.push_eq_none s s.pc).mpr h]; rfl

/-- `FX33` inside memory (R175). -/
theorem execStoreBCD_inside {s : State} (h : s.i.toNat + 3 ≤ 4096) (x : Reg) :
    execStoreBCD x s = .next ((s.setMem (s.mem.writeBytes s.i.toNat (bcdDigits (s.reg x)))).commit .next) := by
  rw [execStoreBCD, (Memory.setBytes_eq_some (a := s.effectiveAddress 0) (bs := bcdDigits (s.reg x))).mpr ⟨h, rfl⟩]
  rfl

/-- Every byte of memory after `FX33` (R175). -/
theorem execStoreBCD_read {s t : State} {x : Reg} (hc : s.mem.wf = true) (h : execStoreBCD x s = .next t) (a : Nat) :
    t.mem.read a = s.byteAfterBCD x a := by
  unfold execStoreBCD at h
  split at h
  · cases h
  · rename_i m hm
    obtain ⟨hl, rfl⟩ := Memory.setBytes_eq_some.mp hm
    cases h
    simp only [State.commit_mem, State.setMem_mem, State.byteAfterBCD]
    by_cases h0 : a = s.effectiveAddress 0
    · rw [if_pos h0, h0]; exact Memory.read_writeBytes_get hc hl (k := 0) (by simp)
    by_cases h1 : a = s.effectiveAddress 1
    · rw [if_neg h0, if_pos h1, h1]; exact Memory.read_writeBytes_get hc hl (k := 1) (by simp)
    by_cases h2 : a = s.effectiveAddress 2
    · rw [if_neg h0, if_neg h1, if_pos h2, h2]; exact Memory.read_writeBytes_get hc hl (k := 2) (by simp)
    · rw [if_neg h0, if_neg h1, if_neg h2]
      refine Memory.read_writeBytes_other ?_
      simp only [State.effectiveAddress, bcdDigits_length] at *
      omega

/-- `FX33` past the end of memory (R175). -/
theorem execStoreBCD_outside {s : State} (h : s.i.toNat + 3 > 4096) (x : Reg) :
    execStoreBCD x s = .fault (.memoryOutOfBounds s.i 3) := by
  rw [execStoreBCD, (Memory.setBytes_eq_none (a := s.effectiveAddress 0) (bs := bcdDigits (s.reg x))).mpr h]
  rfl

/-- `FX55` inside memory (R176). -/
theorem execStoreRegisters_inside {s : State} {x : Reg} (h : s.i.toNat + x.val + 1 ≤ 4096) :
    execStoreRegisters x s =
      .next (((s.setMem (s.mem.writeBytes s.i.toNat (s.regsUpTo x))).advanceI x).commit .next) := by
  rw [execStoreRegisters, (Memory.setBytes_eq_some (a := s.effectiveAddress 0)).mpr ⟨by simp [State.effectiveAddress]; omega, rfl⟩]
  rfl

/-- Every byte of memory after `FX55` (R176). -/
theorem execStoreRegisters_read {s t : State} {x : Reg} (hc : s.mem.wf = true) (h : execStoreRegisters x s = .next t)
    (a : Nat) : t.mem.read a = s.byteAfterRegisters x a := by
  unfold execStoreRegisters at h
  split at h
  · cases h
  · rename_i m hm
    obtain ⟨hl, rfl⟩ := Memory.setBytes_eq_some.mp hm
    cases h
    have hx := reg_lt x
    simp only [State.commit_mem, State.advanceI_mem, State.setMem_mem, State.byteAfterRegisters]
    by_cases ha : s.effectiveAddress 0 ≤ a ∧ a ≤ s.effectiveAddress x.val
    · rw [if_pos ha]
      obtain ⟨k, rfl⟩ := Nat.exists_eq_add_of_le ha.1
      have hk : k ≤ x.val := by have := ha.2; simp only [State.effectiveAddress] at this; omega
      rw [Memory.read_writeBytes_get hc hl (k := k) (by rw [State.regsUpTo_length]; omega), State.regsUpTo_getElem]
      congr 1
      apply Fin.ext
      simp only [Fin.ofNat, Nat.add_sub_cancel_left]
      omega
    · rw [if_neg ha]
      refine Memory.read_writeBytes_other ?_
      simp only [State.effectiveAddress, State.regsUpTo_length] at *
      omega

/-- `FX55` past the end of memory (R176). -/
theorem execStoreRegisters_outside {s : State} {x : Reg} (h : s.i.toNat + x.val + 1 > 4096) :
    execStoreRegisters x s = .fault (.memoryOutOfBounds s.i (x.val + 1)) := by
  rw [execStoreRegisters, (Memory.setBytes_eq_none (a := s.effectiveAddress 0)).mpr (by simp [State.effectiveAddress]; omega)]
  rfl

/-- A register of a block load takes its byte of memory where the block has one, and keeps its value where it has none. -/
theorem State.loadRegs_readBytes_reg (s : State) (a n : Nat) (k : Reg) :
    (s.loadRegs (s.mem.readBytes a n)).reg k = if k.val < n then s.mem.read (a + k.val) else s.reg k := by
  rw [State.loadRegs_reg, List.getD_eq_getElem?_getD]
  split
  · rw [List.getElem?_eq_getElem (by simpa using ‹_›), Memory.getElem_readBytes]; rfl
  · rw [List.getElem?_eq_none (by simp; omega)]; rfl

/-- `FX65` inside memory (R177). -/
theorem execLoadRegisters_inside {s : State} {x : Reg} (h : s.i.toNat + x.val + 1 ≤ 4096) :
    execLoadRegisters x s =
      .next (((s.loadRegs (s.mem.readBytes s.i.toNat (x.val + 1))).advanceI x).commit .next) := by
  rw [execLoadRegisters, Memory.getBytes_eq_some.mpr ⟨by simp [State.effectiveAddress]; omega, rfl⟩]
  rfl

/-- `FX65` past the end of memory (R177). -/
theorem execLoadRegisters_outside {s : State} {x : Reg} (h : s.i.toNat + x.val + 1 > 4096) :
    execLoadRegisters x s = .fault (.memoryOutOfBounds s.i (x.val + 1)) := by
  rw [execLoadRegisters, Memory.getBytes_eq_none.mpr (by simp [State.effectiveAddress]; omega)]
  rfl

/-- `DXYN` inside memory (R199). -/
theorem execDraw_inside {s : State} {n : Nibble} (h : s.i.toNat + n.toNat ≤ 4096) (x y : Reg) :
    execDraw x y n s =
      .next (((s.setFb (drawSprite s.fb (s.reg x) (s.reg y) (s.mem.readBytes s.i.toNat n.toNat)).1).setReg 15
        (flagByte (drawSprite s.fb (s.reg x) (s.reg y) (s.mem.readBytes s.i.toNat n.toNat)).2)).commit .next) := by
  rw [execDraw, (Memory.getBytes_eq_some (a := s.effectiveAddress 0)).mpr ⟨h, rfl⟩]; rfl

/-- `DXYN` past the end of memory, clipped rows counted (R199). -/
theorem execDraw_outside {s : State} {n : Nibble} (h : s.i.toNat + n.toNat > 4096) (x y : Reg) :
    execDraw x y n s = .fault (.spriteOutOfBounds s.i n) := by
  rw [execDraw, (Memory.getBytes_eq_none (a := s.effectiveAddress 0)).mpr h]; rfl

/-- The key that a register names (R211). -/
theorem keyIndex_eq_some {b : Byte} {k : Key} : keyIndex b = some k ↔ b.toNat = k.val := by
  unfold keyIndex
  split
  · simp [Fin.ext_iff]
  · rename_i h
    constructor
    · nofun
    · intro he; exact absurd (he ▸ k.isLt) h

theorem keyIndex_eq_none {b : Byte} : keyIndex b = none ↔ b.toNat > 0xF := by
  unfold keyIndex
  split
  · rename_i h
    have h : b.toNat < 16 := h
    exact ⟨nofun, fun _ => by omega⟩
  · rename_i h
    have h : ¬ b.toNat < 16 := h
    exact ⟨fun _ => by omega, fun _ => rfl⟩

/-- `EX9E` on a key (R211). -/
theorem execSkipKeyPressed_key {s : State} {x : Reg} {k : Key} (h : (s.reg x).toNat = k.val) :
    execSkipKeyPressed x s = skipIf (s.keyDown k) s := by
  simp [execSkipKeyPressed, keyIndex_eq_some.mpr h]

/-- `EXA1` on a key (R212). -/
theorem execSkipKeyNotPressed_key {s : State} {x : Reg} {k : Key} (h : (s.reg x).toNat = k.val) :
    execSkipKeyNotPressed x s = skipIf (!s.keyDown k) s := by
  simp [execSkipKeyNotPressed, keyIndex_eq_some.mpr h]

/-- Both key skips off the pad (R211, R212). -/
theorem execSkipKey_outOfRange {s : State} {x : Reg} (h : (s.reg x).toNat > 0xF) :
    execSkipKeyPressed x s = .fault (.keyIndexOutOfRange (s.reg x)) ∧
    execSkipKeyNotPressed x s = .fault (.keyIndexOutOfRange (s.reg x)) := by
  rw [execSkipKeyPressed, execSkipKeyNotPressed, keyIndex_eq_none.mpr h]
  exact ⟨rfl, rfl⟩

/-- No key has a falling edge. -/
theorem State.lowestFallingEdge_eq_none {s : State} : s.lowestFallingEdge = none ↔ ∀ k, s.fallingEdge k = false := by
  simp [State.lowestFallingEdge]

/-- The key that `FX0A` takes has a falling edge and no lower key has one (R215). -/
theorem State.lowestFallingEdge_eq_some {s : State} {k : Key} :
    s.lowestFallingEdge = some k ↔ s.fallingEdge k = true ∧ ∀ j, j < k → s.fallingEdge j = false := by
  rw [State.lowestFallingEdge, List.find?_eq_some_iff_getElem]
  constructor
  · rintro ⟨hk, i, hi, hik, hlt⟩
    simp only [List.getElem_finRange] at hik hlt
    refine ⟨hk, fun j hj => ?_⟩
    have hji : j.val < i := by have : j.val < k.val := hj; rw [← hik] at this; simpa using this
    simpa using hlt j.val hji
  · rintro ⟨hk, hlt⟩
    refine ⟨hk, k.val, by simp, by simp, fun j hj => ?_⟩
    simp only [List.getElem_finRange]
    simpa using hlt ⟨j, by omega⟩ hj

end Sys2Proof.Machine
end

