-- ==== Sys2Proof/Laws/PerInstr.lean ====
section
/-! SUPPORT. The family `EncodeMatchesRow`: the word of every instruction has the fixed bits of its row of the opcode table. -/

namespace Sys2Proof.Laws.EncodeMatchesRow

/-- The `mask` and `match` of the instruction's row in spec/opcode_table.json. -/
def row : Instr → Word × Word
  | .clear => (0xFFFF#16, 0x00E0#16)
  | .ret => (0xFFFF#16, 0x00EE#16)
  | .machineSubroutine _ => (0xF000#16, 0x0000#16)
  | .jump _ => (0xF000#16, 0x1000#16)
  | .call _ => (0xF000#16, 0x2000#16)
  | .skipEqualImmediate _ _ => (0xF000#16, 0x3000#16)
  | .skipNotEqualImmediate _ _ => (0xF000#16, 0x4000#16)
  | .skipEqualRegister _ _ => (0xF00F#16, 0x5000#16)
  | .loadImmediate _ _ => (0xF000#16, 0x6000#16)
  | .addImmediate _ _ => (0xF000#16, 0x7000#16)
  | .loadRegister _ _ => (0xF00F#16, 0x8000#16)
  | .or _ _ => (0xF00F#16, 0x8001#16)
  | .and _ _ => (0xF00F#16, 0x8002#16)
  | .xor _ _ => (0xF00F#16, 0x8003#16)
  | .addRegister _ _ => (0xF00F#16, 0x8004#16)
  | .subRegisterXY _ _ => (0xF00F#16, 0x8005#16)
  | .shiftRight _ _ => (0xF00F#16, 0x8006#16)
  | .subRegisterYX _ _ => (0xF00F#16, 0x8007#16)
  | .shiftLeft _ _ => (0xF00F#16, 0x800E#16)
  | .skipNotEqualRegister _ _ => (0xF00F#16, 0x9000#16)
  | .loadIndex _ => (0xF000#16, 0xA000#16)
  | .jumpAdd _ => (0xF000#16, 0xB000#16)
  | .loadRandom _ _ => (0xF000#16, 0xC000#16)
  | .draw _ _ _ => (0xF000#16, 0xD000#16)
  | .skipKeyPressed _ => (0xF0FF#16, 0xE09E#16)
  | .skipKeyNotPressed _ => (0xF0FF#16, 0xE0A1#16)
  | .loadDelay _ => (0xF0FF#16, 0xF007#16)
  | .waitForKey _ => (0xF0FF#16, 0xF00A#16)
  | .setDelay _ => (0xF0FF#16, 0xF015#16)
  | .setSound _ => (0xF0FF#16, 0xF018#16)
  | .addIndex _ => (0xF0FF#16, 0xF01E#16)
  | .loadFont _ => (0xF0FF#16, 0xF029#16)
  | .storeBCD _ => (0xF0FF#16, 0xF033#16)
  | .storeRegisters _ => (0xF0FF#16, 0xF055#16)
  | .loadRegisters _ => (0xF0FF#16, 0xF065#16)

/-- The word under the row's mask is the row's match. -/
def Statement (i : Instr) : Prop := encode i &&& (row i).1 = (row i).2

/-! A row that fixes the high nibble, one that also fixes the low nibble, one that also fixes the low byte -/

theorem encodeA_mask (op : Nibble) (nnn : Addr12) : encodeA op nnn &&& 0xF000#16 = op ++ 0x000#12 := by
  rw [encodeA, show (0xF000#16 : Word) = 0xF#4 ++ 0x000#12 from rfl, BitVec.and_append]
  congr 1 <;> [exact BitVec.and_allOnes (x := op); exact BitVec.and_zero]

theorem encodeXI_mask (op : Nibble) (x : Reg) (nn : Byte) : encodeXI op x nn &&& 0xF000#16 = op ++ 0x0#4 ++ 0x00#8 := by
  rw [encodeXI, show (0xF000#16 : Word) = 0xF#4 ++ 0x0#4 ++ 0x00#8 from rfl, BitVec.and_append, BitVec.and_append]
  congr 1 <;> [(congr 1 <;> [exact BitVec.and_allOnes (x := op); exact BitVec.and_zero]); exact BitVec.and_zero]

theorem encodeXI_maskByte (op : Nibble) (x : Reg) (nn : Byte) : encodeXI op x nn &&& 0xF0FF#16 = op ++ 0x0#4 ++ nn := by
  rw [encodeXI, show (0xF0FF#16 : Word) = 0xF#4 ++ 0x0#4 ++ 0xFF#8 from rfl, BitVec.and_append, BitVec.and_append]
  congr 1 <;> [(congr 1 <;> [exact BitVec.and_allOnes (x := op); exact BitVec.and_zero]); exact BitVec.and_allOnes (x := nn)]

theorem encodeXY_mask (op n : Nibble) (x y : Reg) :
    encodeXY op x y n &&& 0xF000#16 = op ++ 0x0#4 ++ 0x0#4 ++ 0x0#4 := by
  rw [encodeXY, show (0xF000#16 : Word) = 0xF#4 ++ 0x0#4 ++ 0x0#4 ++ 0x0#4 from rfl, BitVec.and_append, BitVec.and_append,
    BitVec.and_append]
  congr 1 <;> [(congr 1 <;> [(congr 1 <;> [exact BitVec.and_allOnes (x := op); exact BitVec.and_zero]);
    exact BitVec.and_zero]); exact BitVec.and_zero]

theorem encodeXY_maskNibble (op n : Nibble) (x y : Reg) :
    encodeXY op x y n &&& 0xF00F#16 = op ++ 0x0#4 ++ 0x0#4 ++ n := by
  rw [encodeXY, show (0xF00F#16 : Word) = 0xF#4 ++ 0x0#4 ++ 0x0#4 ++ 0xF#4 from rfl, BitVec.and_append, BitVec.and_append,
    BitVec.and_append]
  congr 1 <;> [(congr 1 <;> [(congr 1 <;> [exact BitVec.and_allOnes (x := op); exact BitVec.and_zero]);
    exact BitVec.and_zero]); exact BitVec.and_allOnes (x := n)]

theorem clear : Statement .clear := rfl
theorem ret : Statement .ret := rfl
theorem machineSubroutine (nnn : Addr12) : Statement (.machineSubroutine nnn) := encodeA_mask _ nnn
theorem jump (nnn : Addr12) : Statement (.jump nnn) := encodeA_mask _ nnn
theorem call (nnn : Addr12) : Statement (.call nnn) := encodeA_mask _ nnn
theorem skipEqualImmediate (x : Reg) (nn : Byte) : Statement (.skipEqualImmediate x nn) := encodeXI_mask _ x nn
theorem skipNotEqualImmediate (x : Reg) (nn : Byte) : Statement (.skipNotEqualImmediate x nn) := encodeXI_mask _ x nn
theorem skipEqualRegister (x y : Reg) : Statement (.skipEqualRegister x y) := encodeXY_maskNibble _ _ x y
theorem loadImmediate (x : Reg) (nn : Byte) : Statement (.loadImmediate x nn) := encodeXI_mask _ x nn
theorem addImmediate (x : Reg) (nn : Byte) : Statement (.addImmediate x nn) := encodeXI_mask _ x nn
theorem loadRegister (x y : Reg) : Statement (.loadRegister x y) := encodeXY_maskNibble _ _ x y
theorem or (x y : Reg) : Statement (.or x y) := encodeXY_maskNibble _ _ x y
theorem and (x y : Reg) : Statement (.and x y) := encodeXY_maskNibble _ _ x y
theorem xor (x y : Reg) : Statement (.xor x y) := encodeXY_maskNibble _ _ x y
theorem addRegister (x y : Reg) : Statement (.addRegister x y) := encodeXY_maskNibble _ _ x y
theorem subRegisterXY (x y : Reg) : Statement (.subRegisterXY x y) := encodeXY_maskNibble _ _ x y
theorem shiftRight (x y : Reg) : Statement (.shiftRight x y) := encodeXY_maskNibble _ _ x y
theorem subRegisterYX (x y : Reg) : Statement (.subRegisterYX x y) := encodeXY_maskNibble _ _ x y
theorem shiftLeft (x y : Reg) : Statement (.shiftLeft x y) := encodeXY_maskNibble _ _ x y
theorem skipNotEqualRegister (x y : Reg) : Statement (.skipNotEqualRegister x y) := encodeXY_maskNibble _ _ x y
theorem loadIndex (nnn : Addr12) : Statement (.loadIndex nnn) := encodeA_mask _ nnn
theorem jumpAdd (nnn : Addr12) : Statement (.jumpAdd nnn) := encodeA_mask _ nnn
theorem loadRandom (x : Reg) (nn : Byte) : Statement (.loadRandom x nn) := encodeXI_mask _ x nn
theorem draw (x y : Reg) (n : Nibble) : Statement (.draw x y n) := encodeXY_mask _ n x y
theorem skipKeyPressed (x : Reg) : Statement (.skipKeyPressed x) := encodeXI_maskByte _ x _
theorem skipKeyNotPressed (x : Reg) : Statement (.skipKeyNotPressed x) := encodeXI_maskByte _ x _
theorem loadDelay (x : Reg) : Statement (.loadDelay x) := encodeXI_maskByte _ x _
theorem waitForKey (x : Reg) : Statement (.waitForKey x) := encodeXI_maskByte _ x _
theorem setDelay (x : Reg) : Statement (.setDelay x) := encodeXI_maskByte _ x _
theorem setSound (x : Reg) : Statement (.setSound x) := encodeXI_maskByte _ x _
theorem addIndex (x : Reg) : Statement (.addIndex x) := encodeXI_maskByte _ x _
theorem loadFont (x : Reg) : Statement (.loadFont x) := encodeXI_maskByte _ x _
theorem storeBCD (x : Reg) : Statement (.storeBCD x) := encodeXI_maskByte _ x _
theorem storeRegisters (x : Reg) : Statement (.storeRegisters x) := encodeXI_maskByte _ x _
theorem loadRegisters (x : Reg) : Statement (.loadRegisters x) := encodeXI_maskByte _ x _

end Sys2Proof.Laws.EncodeMatchesRow
end

