-- ==== Sys2Proof/Laws/Screen.lean ====
section
/-! SUPPORT. The laws of the framebuffer: what setting a pixel leaves in every pixel, and what one pixel, one
row and all rows of a sprite do. -/

namespace Sys2Proof.Machine

/-- A pixel outside the screen reads false. -/
theorem pixel_outside {fb : Framebuffer} {x y : Nat} (h : 64 ≤ x ∨ 32 ≤ y) : pixel fb x y = false := by
  unfold pixel
  split
  · exact BitVec.getLsbD_of_ge _ _ (by simp_all; omega)
  · rfl

/-- Setting a pixel of the screen sets it and no other. -/
theorem pixel_putPixel {fb : Framebuffer} {x y : Nat} (hx : x < 64) (hy : y < 32) (b : Bool) (px py : Nat) :
    pixel (putPixel fb x y b) px py = if px = x ∧ py = y then b else pixel fb px py := by
  unfold pixel putPixel
  simp only [screenH_eq, hy, dif_pos]
  by_cases hpy : py < 32
  · simp only [hpy, dif_pos, Vector.getElem_set]
    by_cases he : y = py
    · subst he
      by_cases hpx : px = x
      · subst hpx; cases b <;> simp [hx]
      · have hb : fb[y].getLsbD px = true → px < 64 := fun h => BitVec.lt_of_getLsbD h
        cases b <;> simp [hpx, Ne.symm hpx, BitVec.getLsbD_twoPow]
        exact hb
    · simp [he, Ne.symm he]
  · rw [dif_neg hpy, if_neg (by omega)]; simp [hpy]

/-- Two framebuffers that show the same pixels are equal. -/
theorem screen_ext {f g : Framebuffer} (h : ∀ x y, x < 64 → y < 32 → pixel f x y = pixel g x y) : f = g := by
  refine Vector.ext fun y hy => BitVec.eq_of_getLsbD_eq fun x hx => ?_
  have := h x y hx hy
  simpa [pixel, hy] using this

/-- A cleared screen is dark (R191). -/
@[simp] theorem pixel_clearScreen (x y : Nat) : pixel clearScreen x y = false := by
  unfold pixel clearScreen
  split <;> simp

/-- One pixel of the raster: it takes the XOR, every other pixel stays (R195). -/
theorem drawPixel_screen {acc : Framebuffer × Bool} {x y : Nat} (hx : x < 64) (hy : y < 32) (bit : Bool) (px py : Nat) :
    pixel (drawPixel x y bit acc).1 px py =
      if px = x ∧ py = y then (pixel acc.1 px py ^^ bit) else pixel acc.1 px py := by
  rw [drawPixel, pixel_putPixel hx hy]
  split
  · rename_i h; rw [h.1, h.2]
  · rfl

/-- One pixel of the raster: the collision is recorded and never forgotten (R195). -/
theorem drawPixel_collision (acc : Framebuffer × Bool) (x y : Nat) (bit : Bool) :
    (drawPixel x y bit acc).2 = (acc.2 || (pixel acc.1 x y && bit)) := rfl

/-! The raster, each loop said once (R195) -/

/-- The columns of one sprite row: every pixel they lie over takes the XOR with its bit, every other pixel stays. -/
theorem pixel_drawColumns {x0 y : Nat} {row : Byte} (n : Nat) {c : Nat} {acc : Framebuffer × Bool} (h : x0 + c + n ≤ 64)
    (hy : y < 32) (px py : Nat) :
    pixel (drawColumns x0 y row c n acc).1 px py =
      if py = y ∧ x0 + c ≤ px ∧ px < x0 + c + n then (pixel acc.1 px py ^^ row.getLsbD (7 - (px - x0)))
      else pixel acc.1 px py := by
  induction n generalizing c acc with
  | zero => rw [if_neg (by omega)]; rfl
  | succ n ih =>
    rw [drawColumns, ih (by omega), drawPixel_screen (by omega) hy]
    by_cases h1 : py = y ∧ x0 + c ≤ px ∧ px < x0 + c + (n + 1)
    · rw [if_pos h1]
      by_cases h2 : px = x0 + c
      · rw [if_neg (by omega), if_pos ⟨h2, h1.1⟩]; congr 2; omega
      · rw [if_pos (by omega), if_neg (by omega)]
    · rw [if_neg h1, if_neg (by omega), if_neg (by omega)]

/-- The columns of one sprite row collide exactly when a bit 1 lies over a pixel that was on. -/
theorem collision_drawColumns {x0 y : Nat} {row : Byte} (n : Nat) {c : Nat} {acc : Framebuffer × Bool} (h : x0 + c + n ≤ 64)
    (hy : y < 32) :
    (drawColumns x0 y row c n acc).2 = true ↔ acc.2 = true ∨
      ∃ k, c ≤ k ∧ k < c + n ∧ pixel acc.1 (x0 + k) y = true ∧ row.getLsbD (7 - k) = true := by
  induction n generalizing c acc with
  | zero => simp [drawColumns]; intros; omega
  | succ n ih =>
    rw [drawColumns, ih (by omega), drawPixel_collision]
    simp only [drawPixel_screen (show x0 + c < 64 by omega) hy]
    constructor
    · rintro (h1 | ⟨k, h1, h2, h3, h4⟩)
      · simp only [Bool.or_eq_true, Bool.and_eq_true] at h1
        exact h1.imp id fun h1 => ⟨c, by omega, by omega, h1⟩
      · rw [if_neg (by omega)] at h3; exact .inr ⟨k, by omega, by omega, h3, h4⟩
    · rintro (h1 | ⟨k, h1, h2, h3, h4⟩)
      · simp [h1]
      · by_cases hk : k = c
        · subst hk; simp [h3, h4]
        · exact .inr ⟨k, by omega, by omega, by rw [if_neg (by omega)]; exact h3, h4⟩

/-- The rows of a sprite inside the screen: every pixel they lie over takes the XOR with its bit, every other pixel stays. -/
theorem pixel_drawRows {x0 w : Nat} (rows : List Byte) {y : Nat} {acc : Framebuffer × Bool} (h : x0 + w ≤ 64)
    (hy : y + rows.length ≤ 32) (px py : Nat) :
    pixel (drawRows x0 w y rows acc).1 px py =
      if h : (y ≤ py ∧ py < y + rows.length) ∧ x0 ≤ px ∧ px < x0 + w then
        (pixel acc.1 px py ^^ (rows[py - y]'(by omega)).getLsbD (7 - (px - x0)))
      else pixel acc.1 px py := by
  induction rows generalizing y acc with
  | nil => rw [dif_neg (by rw [List.length_nil]; omega)]; rfl
  | cons r rows ih =>
    simp only [List.length_cons] at hy
    rw [drawRows, ih (by omega), pixel_drawColumns _ (by omega) (by omega)]
    by_cases h1 : (y ≤ py ∧ py < y + (r :: rows).length) ∧ x0 ≤ px ∧ px < x0 + w
    · rw [dif_pos h1]
      simp only [List.length_cons] at h1
      by_cases h2 : py = y
      · subst h2; rw [dif_neg (by omega), if_pos (by omega)]; simp
      · rw [dif_pos (by omega), if_neg (by omega)]
        have : py - y = (py - (y + 1)) + 1 := by omega
        simp only [this, List.getElem_cons_succ]
    · rw [dif_neg h1]
      simp only [List.length_cons] at h1
      rw [dif_neg (by omega), if_neg (by omega)]

/-- The rows of a sprite inside the screen collide exactly when a bit 1 lies over a pixel that was on. -/
theorem collision_drawRows {x0 w : Nat} (rows : List Byte) {y : Nat} {acc : Framebuffer × Bool} (h : x0 + w ≤ 64)
    (hy : y + rows.length ≤ 32) :
    (drawRows x0 w y rows acc).2 = true ↔ acc.2 = true ∨
      ∃ r k, ∃ hr : r < rows.length, k < w ∧ pixel acc.1 (x0 + k) (y + r) = true ∧ rows[r].getLsbD (7 - k) = true := by
  induction rows generalizing y acc with
  | nil => simp [drawRows]
  | cons q rows ih =>
    simp only [List.length_cons] at hy
    rw [drawRows, ih (by omega), collision_drawColumns _ (by omega) (by omega)]
    simp only [pixel_drawColumns w (show x0 + 0 + w ≤ 64 by omega) (show y < 32 by omega)]
    constructor
    · rintro ((h1 | ⟨k, h1, h2, h3, h4⟩) | ⟨r, k, hr, hk, h3, h4⟩)
      · exact .inl h1
      · exact .inr ⟨0, k, Nat.succ_pos _, by omega, h3, h4⟩
      · rw [if_neg (by omega)] at h3
        exact .inr ⟨r + 1, k, by simpa using hr, hk, by rw [← h3]; congr 1; omega, h4⟩
    · rintro (h1 | ⟨r, k, hr, hk, h3, h4⟩)
      · exact .inl (.inl h1)
      · cases r with
        | zero => exact .inl (.inr ⟨k, by omega, by omega, h3, h4⟩)
        | succ r =>
          exact .inr ⟨r, k, by simpa using hr, hk, by rw [if_neg (by omega), ← h3]; congr 1; omega, h4⟩

end Sys2Proof.Machine
end

