-- ==== Sys2Proof/Laws/Step.lean ====
section
/-! SUPPORT. What a cycle, a transaction and a step can do, each said once, and that `withFetchWord` makes the very next step run
the word. -/

namespace Sys2Proof.Machine

/-- A fetch inside memory gives the big-endian word at pc (R57, R101). -/
theorem State.fetchWord_inside {s : State} (h : s.pc.toNat + 2 ≤ 4096) :
    s.fetchWord = some (wordOfBytes (s.mem.read s.pc.toNat) (s.mem.read (s.pc.toNat + 1))) := by
  rw [State.fetchWord, memSize_eq, if_neg (by omega)]

/-- A fetch past the end of memory gives none (R101). -/
theorem State.fetchWord_eq_none {s : State} : s.fetchWord = none ↔ s.pc.toNat + 2 > 4096 := by
  unfold State.fetchWord
  split <;> simp_all

/-- A cycle that fetches a legal word executes it. -/
theorem runCycle_of_decode {s : State} {w : Word} {i : Instr} (hf : s.fetchWord = some w) (hd : decode w = .ok i) :
    runCycle s = exec i s := by
  simp [runCycle, hf, hd]

/-- Everything a successful cycle can be. -/
theorem runCycle_eq_next {s t : State} (h : runCycle s = .next t) :
    ∃ w i, s.pc.toNat + 2 ≤ 4096 ∧ s.fetchWord = some w ∧ decode w = .ok i ∧ exec i s = .next t := by
  unfold runCycle at h
  split at h
  · cases h
  · rename_i w hw
    split at h
    · cases h
    · rename_i i hi
      refine ⟨w, i, ?_, hw, hi, h⟩
      by_contra hc
      rw [State.fetchWord_eq_none.mpr (by omega)] at hw
      cases hw

/-- A tick changes the two timers and nothing else (R245). -/
theorem updateTimers_eq (s : State) :
    updateTimers s = { s with delay := tickDown s.delay, sound := tickDown s.sound } := rfl

/-- The next call is taken off the pending ones, or drawn; nothing but the host's fields changes with it. -/
theorem State.nextCall_state (s : State) : ∃ ts d, s.nextCall.2 = { s with host := ts, draws := d } := by
  unfold State.nextCall
  split
  · exact ⟨_, s.draws, rfl⟩
  · split
    · exact ⟨s.host, _, rfl⟩
    · exact ⟨_, _, rfl⟩

@[simp] theorem perform_cycle (inp : CycleInput) (s : State) : perform (.cycle inp) s = runCycle (s.setInput inp) := rfl
@[simp] theorem perform_updateTimers (s : State) : perform .updateTimers s = .next (updateTimers s) := rfl
@[simp] theorem ticksThenCycle_zero (inp : CycleInput) (ts : List Transaction) :
    ticksThenCycle 0 inp ts = .cycle inp :: ts := rfl
@[simp] theorem ticksThenCycle_succ (n : Nat) (inp : CycleInput) (ts : List Transaction) :
    ticksThenCycle (n + 1) inp ts = .updateTimers :: ticksThenCycle n inp ts := rfl
@[simp] theorem State.reachesIn_zero (s t : State) : s.reachesIn 0 t ↔ t = s := .rfl
@[simp] theorem State.reachesIn_succ (s t : State) (n : Nat) :
    s.reachesIn (n + 1) t ↔ ∃ u, step s = .next u ∧ u.reachesIn n t := .rfl

/-- Everything a step can be: a tick, or one cycle on the presented inputs. -/
theorem step_eq (s : State) : ∃ ts d, step s = .next (updateTimers { s with host := ts, draws := d }) ∨
    ∃ inp, step s = runCycle { s with input := inp, host := ts, draws := d } := by
  obtain ⟨ts, d, hs⟩ := s.nextCall_state
  refine ⟨ts, d, ?_⟩
  rw [step, nextTransaction, hs]
  cases s.nextCall.1 with
  | updateTimers => exact .inl rfl
  | cycle inp => exact .inr ⟨inp, rfl⟩

/-- Everything a successful step can be: a tick, or one instruction on the presented inputs. -/
theorem step_eq_next {s t : State} (h : step s = .next t) :
    ∃ ts d, t = updateTimers { s with host := ts, draws := d } ∨
      ∃ inp i, exec i { s with input := inp, host := ts, draws := d } = .next t ∧ s.pc.toNat + 2 ≤ 4096 := by
  obtain ⟨ts, d, hs | ⟨inp, hs⟩⟩ := step_eq s
  · rw [hs] at h
    cases h
    exact ⟨ts, d, .inl rfl⟩
  · rw [hs] at h
    obtain ⟨w, i, hp, -, -, he⟩ := runCycle_eq_next h
    exact ⟨ts, d, .inr ⟨inp, i, he, hp⟩⟩

/-- A tick that is pending runs as the step. -/
theorem step_updateTimers {s : State} {ts : List Transaction} (h : s.host = .updateTimers :: ts) :
    step s = .next (updateTimers { s with host := ts }) := by
  simp [step, nextTransaction, State.nextCall, State.setHost, h]

/-- A cycle that is pending runs as the step. -/
theorem step_cycle {s : State} {inp : CycleInput} {ts : List Transaction} (h : s.host = .cycle inp :: ts) :
    step s = runCycle { s with input := inp, host := ts } := by
  simp [step, nextTransaction, State.nextCall, State.setHost, State.setInput, h]

/-- With nothing pending the step is the first of the drawn calls: a free number of ticks, then a cycle on free inputs. -/
theorem step_draw {s : State} (h : s.host = []) :
    step s = step { s with
      host := ticksThenCycle (Config.freeTicks s.draws) (freeInput s.draws) [], draws := s.draws + 1 } := by
  cases hn : Config.freeTicks s.draws with
  | zero => simp [step, nextTransaction, State.nextCall, State.setHost, h, hn]
  | succ n => simp [step, nextTransaction, State.nextCall, State.setHost, h, hn]

/-- When a cycle is next, the step is a cycle on inputs that do not depend on those of an earlier one. -/
theorem State.cycleIsNext.step_eq {s : State} (h : s.cycleIsNext) :
    ∃ inp ts d, ∀ old, step (s.setInput old) = runCycle { s with input := inp, host := ts, draws := d } := by
  obtain ⟨inp, ts, hs⟩ | ⟨hs, hn⟩ := h
  · exact ⟨inp, ts, s.draws, fun old => step_cycle (s := s.setInput old) hs⟩
  · refine ⟨freeInput s.draws, [], s.draws + 1, fun old => (step_draw (s := s.setInput old) hs).trans ?_⟩
    rw [State.setInput_draws, hn]
    exact step_cycle rfl

/-- When no cycle is next, the step is a tick. -/
theorem step_of_not_cycleIsNext {s : State} (h : ¬ s.cycleIsNext) :
    ∃ ts d, ∀ old, step (s.setInput old) = .next (updateTimers { s.setInput old with host := ts, draws := d }) := by
  rcases hs : s.host with _ | ⟨_ | _, ts⟩
  · cases hn : Config.freeTicks s.draws with
    | zero => exact absurd (.inr ⟨hs, hn⟩) h
    | succ n =>
      refine ⟨ticksThenCycle n (freeInput s.draws) [], s.draws + 1, fun old => (step_draw (s := s.setInput old) hs).trans ?_⟩
      rw [State.setInput_draws, hn]
      exact step_updateTimers rfl
  · exact absurd (.inl ⟨_, ts, hs⟩) h
  · exact ⟨ts, s.draws, fun old => step_updateTimers (s := s.setInput old) hs⟩

/-- A tick takes one from a timer, floored at 0 (R245). -/
theorem tickDown_toNat (b : Byte) : (tickDown b).toNat = b.toNat - 1 := by
  have := b.isLt
  unfold tickDown
  split
  · rw [BitVec.toNat_sub]; simp; omega
  · omega

/-- The address where a placed word stands can be fetched. -/
theorem fetchable_le (p : Word) : (fetchable p).toNat + 2 ≤ 4096 := by
  unfold fetchable
  split
  · decide
  · simp_all

/-- Putting a cycle first changes the host's fields only, and a cycle is then pending in front. -/
theorem State.cycleFirst_eq (s : State) :
    ∃ inp ts d, s.cycleFirst = { s with host := .cycle inp :: ts, draws := d } := by
  have hd := List.head?_dropWhile_not (fun t => t == Transaction.updateTimers) s.host
  unfold State.cycleFirst
  rcases hs : s.host.dropWhile (fun t => t == Transaction.updateTimers) with _ | ⟨_ | _, ts⟩
  · exact ⟨_, _, _, rfl⟩
  · exact ⟨_, ts, s.draws, rfl⟩
  · rw [hs] at hd
    simp at hd

/-- A placed word stands where a pending cycle fetches next; only pc, memory and the host's fields differ from before. -/
theorem placeWord_eq (s : State) (w : Word) : ∃ inp ts d, placeWord s w =
    { s with
      pc := fetchable s.pc, mem := s.mem.writeBytes (fetchable s.pc).toNat (bytesOfWord w)
      host := .cycle inp :: ts, draws := d } := by
  obtain ⟨inp, ts, d, h⟩ := s.cycleFirst_eq
  exact ⟨inp, ts, d, by rw [placeWord, h]⟩

/-- A placed word is the word the next fetch reads. -/
theorem fetchWord_placeWord {s : State} (h : s.mem.wf = true) (w : Word) : (placeWord s w).fetchWord = some w := by
  have hp := fetchable_le s.pc
  have hl : (fetchable s.pc).toNat + (bytesOfWord w).length ≤ 4096 := hp
  have h0 := Memory.read_writeBytes_get h hl (k := 0) (by simp [bytesOfWord])
  have h1 := Memory.read_writeBytes_get h hl (k := 1) (by simp [bytesOfWord])
  rw [State.fetchWord_inside hp]
  simp only [placeWord]
  rw [Nat.add_zero] at h0
  rw [h0, h1]
  congr 1
  apply BitVec.eq_of_toNat_eq
  have := w.isLt
  simp only [bytesOfWord, List.getElem_cons_zero, List.getElem_cons_succ]
  rw [wordOfBytes_toNat, BitVec.extractLsb'_toNat, BitVec.extractLsb'_toNat, Nat.shiftRight_eq_div_pow, Nat.shiftRight_zero]
  omega

/-- The very next step after `withFetchWord` runs exactly that word. -/
theorem step_withFetchWord {s : State} (h : s.mem.wf = true) {nbits w : Nat} {i : Instr}
    (hd : decode (tableWord nbits w) = .ok i) :
    ∃ inp ts, step (s.withFetchWord nbits w) = exec i { s.withFetchWord nbits w with input := inp, host := ts } := by
  have hf := fetchWord_placeWord h (tableWord nbits w)
  obtain ⟨inp, ts, d, hp⟩ := placeWord_eq s (tableWord nbits w)
  unfold State.withFetchWord
  refine ⟨inp, ts, (step_cycle (by rw [hp])).trans (runCycle_of_decode ?_ hd)⟩
  exact hf

end Sys2Proof.Machine
end

