-- ==== Sys2Proof/Tests/Slice0.lean ====
section
/-! SUPPORT. The model's own tests. Expected results are the spec's: the encodings of 30_encoding.md R76 and R81, and the vectors of
95_test_vectors.md (named in each comment). After them, for every statement with hypotheses, a witness that meets them. -/

namespace Sys2Proof.Tests

open Sys2Proof.Machine

/-! ## Well-formedness: the one ill-formed pair of terms, and their neighbours -/

theorem test_wellFormed_refuses_00E0 : (Instr.machineSubroutine 0x0E0#12).wellFormed = false := by decide
theorem test_wellFormed_refuses_00EE : (Instr.machineSubroutine 0x0EE#12).wellFormed = false := by decide
theorem test_wellFormed_takes_the_rest : (Instr.machineSubroutine 0x0E1#12).wellFormed = true ∧
    (Instr.machineSubroutine 0x1E0#12).wellFormed = true ∧ Instr.clear.wellFormed = true := by decide

/-! ## Decoding: words written out bit by bit from the patterns of R76, one family a theorem, every constructor -/

theorem test_decode_0 : decode 0b0000000011100000#16 = .ok .clear ∧ decode 0b0000000011101110#16 = .ok .ret ∧
    decode 0b0000000011100001#16 = .ok (.machineSubroutine 0x0E1#12) := by decide
theorem test_decode_jump_call : decode 0b0001101010111100#16 = .ok (.jump 0xABC#12) ∧
    decode 0b0010111100000000#16 = .ok (.call 0xF00#12) ∧ decode 0b1011000100100011#16 = .ok (.jumpAdd 0x123#12) ∧
    decode 0b1010001011110000#16 = .ok (.loadIndex 0x2F0#12) := by decide
theorem test_decode_skips : decode 0b0011101001111111#16 = .ok (.skipEqualImmediate 0xA 0x7F#8) ∧
    decode 0b0100101001111111#16 = .ok (.skipNotEqualImmediate 0xA 0x7F#8) ∧
    decode 0b0101000100100000#16 = .ok (.skipEqualRegister 1 2) ∧
    decode 0b1001000100100000#16 = .ok (.skipNotEqualRegister 1 2) := by decide
theorem test_decode_immediates : decode 0b0110101000101111#16 = .ok (.loadImmediate 0xA 0x2F#8) ∧
    decode 0b0111001000100000#16 = .ok (.addImmediate 2 0x20#8) ∧
    decode 0b1100001100001111#16 = .ok (.loadRandom 3 0x0F#8) := by decide
theorem test_decode_8_loads_logic : decode 0b1000000100100000#16 = .ok (.loadRegister 1 2) ∧
    decode 0b1000000100100001#16 = .ok (.or 1 2) ∧ decode 0b1000000100100010#16 = .ok (.and 1 2) ∧
    decode 0b1000000100100011#16 = .ok (.xor 1 2) := by decide
theorem test_decode_8_arithmetic : decode 0b1000000100100100#16 = .ok (.addRegister 1 2) ∧
    decode 0b1000000100100101#16 = .ok (.subRegisterXY 1 2) ∧ decode 0b1000000100100110#16 = .ok (.shiftRight 1 2) ∧
    decode 0b1000000100100111#16 = .ok (.subRegisterYX 1 2) ∧ decode 0b1000000100101110#16 = .ok (.shiftLeft 1 2) := by decide
theorem test_decode_D_E : decode 0b1101000100100101#16 = .ok (.draw 1 2 5#4) ∧
    decode 0b1110001110011110#16 = .ok (.skipKeyPressed 3) ∧
    decode 0b1110001110100001#16 = .ok (.skipKeyNotPressed 3) := by decide
theorem test_decode_F_timers : decode 0b1111001000000111#16 = .ok (.loadDelay 2) ∧
    decode 0b1111010100001010#16 = .ok (.waitForKey 5) ∧ decode 0b1111001000010101#16 = .ok (.setDelay 2) ∧
    decode 0b1111001000011000#16 = .ok (.setSound 2) := by decide
theorem test_decode_F_memory : decode 0b1111010000011110#16 = .ok (.addIndex 4) ∧
    decode 0b1111101000101001#16 = .ok (.loadFont 0xA) ∧ decode 0b1111011100110011#16 = .ok (.storeBCD 7) ∧
    decode 0b1111001001010101#16 = .ok (.storeRegisters 2) ∧ decode 0b1111001001100101#16 = .ok (.loadRegisters 2) := by decide
/-- 95_test_vectors.md section 2.1, the illegal words. -/
def illegalWords : List Word :=
  [0x5121#16, 0x512F#16, 0x8128#16, 0x812D#16, 0x812F#16, 0x9121#16, 0xE09F#16, 0xE0A2#16, 0xF000#16, 0xF0FF#16, 0xFFFF#16]
theorem test_decode_illegal : illegalWords.map decode = illegalWords.map fun w => .error (.unknownInstruction w) := by decide
/-- The table's numbering of a word (opcode_table.json) reaches the decoder. -/
theorem test_decodeTableWord : decodeTableWord 16 0xD125 = some (.draw 1 2 5#4) ∧ decodeTableWord 16 0x8128 = none := by decide
theorem test_decodeBytes_truncated : decodeBytes [0x60#8] = .error .truncated := by decide

/-! ## One step: helpers -/

/-- Keys with these down. -/
def keys (ks : List Nat) : Keys := Vector.ofFn fun k : Fin 16 => ks.contains k.val

/-- The inputs of a cycle. -/
def inputs (cur prev : List Nat) (rnd : Byte := 0#8) : CycleInput := { current := keys cur, previous := keys prev, rnd := rnd }

/-- One step of `s` on the word `w` at its pc, with these inputs. -/
def stepOn (w : Nat) (s : State) (inp : CycleInput := inputs [] []) : Result :=
  step ((s.setHost [.cycle inp]).withFetchWord 16 w)

/-- The reset state with these registers. -/
def regs (l : List (Reg × Byte)) : State := l.foldl (fun s p => s.setReg p.1 p.2) State.reset

/-- The reset state with this I, these registers, and bytes written at 0x300. -/
def at300 (i : Word) (l : List (Reg × Byte)) (bs : List Byte) : State :=
  ((regs l).setI i).setMem (State.reset.mem.writeBytes 0x300 bs)

/-- What `f` sees of the next state. -/
def after {α : Type} (r : Result) (f : State → α) : Option α :=
  match r with
  | .next t => some (f t)
  | .fault _ => none
  | .refused _ => none

/-- The error that ends the cycle. -/
def failsWith (r : Result) : Option Fault :=
  match r with
  | .next _ => none
  | .fault e => some e
  | .refused _ => none

/-- The reset state with a stack of `n` entries, each the address `a`. -/
def stacked (n : Fin 13) (a : Word) : State := { State.reset with sp := n, stack := Vector.replicate 12 a }

/-! ## One step: control transfer (95_test_vectors.md sections 1, 2.2, 2.3) -/

theorem test_sys : failsWith (stepOn 0x0ABC State.reset) = some (.unknownMachineSubroutine 0xABC#12) := by decide
theorem test_ret : after (stepOn 0x00EE (stacked 1 0x204#16)) (fun t => (t.pc, t.sp)) = some (0x206#16, 0) := by decide
theorem test_ret_empty : failsWith (stepOn 0x00EE State.reset) = some .emptyStackReturn := by decide
theorem test_jump : after (stepOn 0x1ABC State.reset) (·.pc) = some 0xABC#16 := by decide
theorem test_jumpAdd : after (stepOn 0xBFFF (regs [(0, 0xFF#8), (15, 1#8)])) (·.pc) = some 0x10FE#16 := by decide
theorem test_call : after (stepOn 0x2300 (stacked 11 0x0#16)) (fun t => (t.pc, t.sp, t.stack[11], t.stack[10])) =
    some (0x300#16, 12, 0x200#16, 0x0#16) := by decide
theorem test_call_full : failsWith (stepOn 0x2300 (stacked 12 0x0#16)) = some .stackOverflow := by decide
theorem test_skipEqualImmediate : after (stepOn 0x3142 (regs [(1, 0x42#8)])) (·.pc) = some 0x204#16 ∧
    after (stepOn 0x3143 (regs [(1, 0x42#8)])) (·.pc) = some 0x202#16 := by decide
theorem test_skipNotEqualImmediate : after (stepOn 0x4142 (regs [(1, 0x42#8)])) (·.pc) = some 0x202#16 ∧
    after (stepOn 0x4100 (regs [(1, 0x42#8)])) (·.pc) = some 0x204#16 := by decide
theorem test_skipEqualRegister : after (stepOn 0x5120 (regs [(1, 0x10#8), (2, 0x10#8)])) (·.pc) = some 0x204#16 ∧
    after (stepOn 0x5120 (regs [(1, 0x10#8), (2, 0x11#8)])) (·.pc) = some 0x202#16 := by decide
theorem test_skipNotEqualRegister : after (stepOn 0x9120 (regs [(1, 0x10#8), (2, 0x11#8)])) (·.pc) = some 0x204#16 ∧
    after (stepOn 0x9110 (regs [(1, 0x10#8)])) (·.pc) = some 0x202#16 := by decide
theorem test_fetch_end : after (stepOn 0x1200 { State.reset with pc := 0xFFE#16 }) (·.pc) = some 0x200#16 ∧
    failsWith (step { State.reset with pc := 0xFFF#16, host := [.cycle (inputs [] [])] }) =
      some (.fetchOutOfBounds 0xFFF#16) := by decide
theorem test_fetch_odd : after (stepOn 0x607F { State.reset with pc := 0x201#16 }) (fun t => (t.reg 0, t.pc)) =
    some (0x7F#8, 0x203#16) := by decide

/-! ## One step: ALU (section 2.4) -/

theorem test_loadImmediate : after (stepOn 0x6A5C State.reset) (·.reg 10) = some 0x5C#8 := by decide
theorem test_addImmediate : after (stepOn 0x7101 (regs [(15, 1#8), (1, 0xFF#8)])) (fun t => (t.reg 1, t.reg 15)) =
    some (0#8, 1#8) := by decide
theorem test_loadRegister : after (stepOn 0x8120 (regs [(2, 0x99#8)])) (fun t => (t.reg 1, t.reg 2)) =
    some (0x99#8, 0x99#8) := by decide
theorem test_or : after (stepOn 0x8121 (regs [(1, 0x0F#8), (2, 0xF0#8), (15, 7#8)])) (fun t => (t.reg 1, t.reg 15)) =
    some (0xFF#8, 7#8) := by decide
theorem test_and : after (stepOn 0x8122 (regs [(1, 0xF0#8), (2, 0x3C#8)])) (·.reg 1) = some 0x30#8 := by decide
theorem test_xor : after (stepOn 0x8123 (regs [(1, 0xF0#8), (2, 0x3C#8)])) (·.reg 1) = some 0xCC#8 := by decide
theorem test_addRegister : after (stepOn 0x8124 (regs [(1, 0x80#8), (2, 0x80#8)])) (fun t => (t.reg 1, t.reg 15)) =
    some (0#8, 1#8) := by decide
theorem test_addRegister_VF : after (stepOn 0x8F34 (regs [(15, 1#8), (3, 1#8)])) (·.reg 15) = some 0#8 ∧
    after (stepOn 0x81F4 (regs [(1, 0x10#8), (15, 5#8)])) (fun t => (t.reg 1, t.reg 15)) = some (0x15#8, 0#8) := by decide
theorem test_subRegisterXY : after (stepOn 0x8125 (regs [(1, 1#8), (2, 2#8)])) (fun t => (t.reg 1, t.reg 15)) =
    some (0xFF#8, 0#8) := by decide
theorem test_subRegisterXY_equal : after (stepOn 0x8125 (regs [(1, 5#8), (2, 5#8)])) (fun t => (t.reg 1, t.reg 15)) =
    some (0#8, 1#8) := by decide
theorem test_subRegisterYX : after (stepOn 0x8127 (regs [(1, 1#8), (2, 3#8)])) (fun t => (t.reg 1, t.reg 15)) =
    some (2#8, 1#8) := by decide
theorem test_shiftRight : after (stepOn 0x8126 (regs [(1, 0xAA#8), (2, 3#8)])) (fun t => (t.reg 1, t.reg 15, t.reg 2)) =
    some (1#8, 1#8, 3#8) := by decide
theorem test_shiftRight_VF : after (stepOn 0x8F26 (regs [(2, 2#8)])) (·.reg 15) = some 0#8 := by decide
theorem test_shiftLeft : after (stepOn 0x812E (regs [(2, 0x81#8)])) (fun t => (t.reg 1, t.reg 15, t.reg 2)) =
    some (2#8, 1#8, 0x81#8) := by decide
theorem test_loadRandom : after (stepOn 0xC30F State.reset (inputs [] [] 0xA7#8)) (·.reg 3) = some 0x07#8 := by decide

/-! ## One step: index and memory (section 2.5) -/

theorem test_loadIndex : after (stepOn 0xAFFF State.reset) (·.i) = some 0x0FFF#16 := by decide
theorem test_addIndex : after (stepOn 0xF01E ((regs [(0, 1#8)]).setI 0xFFFF#16)) (fun t => (t.i, t.reg 15)) =
    some (0#16, 0#8) := by decide
theorem test_loadFont : after (stepOn 0xF029 (regs [(0, 0xF#8)])) (·.i) = some 0x04B#16 ∧
    after (stepOn 0xF029 (regs [(0, 0xFF#8)])) (·.i) = some 0x4FB#16 := by decide
theorem test_storeBCD : after (stepOn 0xF533 ((regs [(5, 0x7B#8)]).setI 0xFFD#16)) (fun t => (t.mem.readBytes 0xFFD 3, t.i)) =
    some ([1#8, 2#8, 3#8], 0xFFD#16) := by decide
theorem test_storeBCD_outside : failsWith (stepOn 0xF533 ((regs [(5, 0x7B#8)]).setI 0xFFE#16)) = some (.memoryOutOfBounds 0xFFE#16 3) := by
  decide
theorem test_storeRegisters : after (stepOn 0xF255 ((regs [(0, 0x11#8), (1, 0x22#8), (2, 0x33#8), (3, 0x44#8)]).setI 0x300#16))
    (fun t => (t.mem.readBytes 0x300 4, t.i)) = some ([0x11#8, 0x22#8, 0x33#8, 0#8], 0x303#16) := by decide
theorem test_storeRegisters_outside : failsWith (stepOn 0xFF55 (State.reset.setI 0xFF1#16)) = some (.memoryOutOfBounds 0xFF1#16 16) := by
  decide
theorem test_loadRegisters : after (stepOn 0xF265 (at300 0x300#16 [(3, 0x99#8)] [0xAA#8, 0xBB#8, 0xCC#8]))
    (fun t => (t.reg 0, t.reg 1, t.reg 2, t.reg 3, t.i)) = some (0xAA#8, 0xBB#8, 0xCC#8, 0x99#8, 0x303#16) := by decide
theorem test_loadRegisters_outside : failsWith (stepOn 0xF265 (State.reset.setI 0xFFE#16)) = some (.memoryOutOfBounds 0xFFE#16 3) := by
  decide

/-! ## One step: display (section 2.6) -/

theorem test_clear : after (stepOn 0x00E0 (State.reset.setFb (putPixel State.reset.fb 5 7 true))) (fun t => pixel t.fb 5 7) =
    some false := by decide
/-- The anchor wraps, the sprite is clipped at the right edge. -/
theorem test_draw_clips : after (stepOn 0xD011 (at300 0x300#16 [(0, 0x7C#8)] [0xFF#8]))
    (fun t => (t.fb[0], t.reg 15)) = some (0xF000000000000000#64, 0#8) := by decide
/-- A collision switches the pixel off and sets VF. -/
theorem test_draw_collides : after (stepOn 0xD011 ((at300 0x300#16 [] [0x80#8]).setFb (putPixel State.reset.fb 0 0 true)))
    (fun t => (pixel t.fb 0 0, t.reg 15)) = some (false, 1#8) := by decide
theorem test_draw_outside : failsWith (stepOn 0xD010 (State.reset.setI 0x1001#16)) = some (.spriteOutOfBounds 0x1001#16 0#4) ∧
    after (stepOn 0xD010 ((regs [(15, 1#8)]).setI 0x1000#16)) (·.reg 15) = some 0#8 := by decide
theorem test_getPixel : State.reset.screenPixel 63 31 = .ok false ∧
    State.reset.screenPixel 64 0 = .error (.screenOutOfBounds 64 0) ∧
    State.reset.screenPixel 0 32 = .error (.screenOutOfBounds 0 32) := by decide

/-! ## One step: keys and timers (section 2.7) -/

theorem test_skipKeyPressed : after (stepOn 0xE39E (regs [(3, 5#8)]) (inputs [5] [])) (·.pc) = some 0x204#16 ∧
    after (stepOn 0xE39E (regs [(3, 5#8)]) (inputs [] [5])) (·.pc) = some 0x202#16 := by decide
theorem test_skipKeyPressed_outside : failsWith (stepOn 0xE39E (regs [(3, 0x10#8)])) = some (.keyIndexOutOfRange 0x10#8) := by decide
theorem test_skipKeyNotPressed : after (stepOn 0xE3A1 (regs [(3, 5#8)]) (inputs [] [])) (·.pc) = some 0x204#16 ∧
    after (stepOn 0xE3A1 (regs [(3, 5#8)]) (inputs [5] [])) (·.pc) = some 0x202#16 := by decide
theorem test_skipKeyNotPressed_outside : failsWith (stepOn 0xE3A1 (regs [(3, 0xFF#8)])) = some (.keyIndexOutOfRange 0xFF#8) := by decide
theorem test_loadDelay : after (stepOn 0xF207 (State.reset.setDelay 0x3C#8)) (·.reg 2) = some 0x3C#8 := by decide
theorem test_waitForKey_stays : after (stepOn 0xF20A State.reset (inputs [4] [])) (fun t => (t.pc, t.reg 2)) =
    some (0x200#16, 0#8) := by decide
theorem test_waitForKey_takes_lowest : after (stepOn 0xF20A State.reset (inputs [] [3, 7])) (fun t => (t.pc, t.reg 2)) =
    some (0x202#16, 3#8) := by decide
theorem test_setDelay : after (stepOn 0xF215 (regs [(2, 3#8)])) (fun t => (t.delay, t.sound)) = some (3#8, 0#8) := by decide
theorem test_setSound : after (stepOn 0xF218 (regs [(2, 2#8)])) (fun t => (t.sound, t.isSoundPlaying)) = some (2#8, true) := by
  decide
theorem test_updateTimers : (updateTimers ((State.reset.setDelay 1#8).setSound 2#8)).delay = 0#8 ∧
    (updateTimers ((State.reset.setDelay 1#8).setSound 2#8)).isSoundPlaying = false ∧
    (updateTimers State.reset).sound = 0#8 := by decide
theorem test_tick_then_cycle : after (step { State.reset.setDelay 3#8 with host := [.updateTimers, .cycle (inputs [] [])] })
    (fun t => (t.delay, t.pc, t.host)) = some (2#8, 0x200#16, [.cycle (inputs [] [])]) := by decide

/-! ## Reset (section 2.8) -/

/-- An empty program: the first cycle fetches 0x0000. -/
theorem test_reset_first_cycle : failsWith (step { State.reset with host := [.cycle (inputs [] [])] }) =
    some (.unknownMachineSubroutine 0#12) := by decide
/-- With nothing pending too, whatever the free number of ticks and the free inputs are: at reset both timers are 0. -/
theorem test_reset_first_step : step State.reset = .fault (.unknownMachineSubroutine 0#12) ∨
    ∃ ts, step State.reset = .next { State.reset with host := ts, draws := 1 } := by
  rw [step_draw rfl]
  cases Config.freeTicks State.reset.draws with
  | zero => exact .inl rfl
  | succ n => exact .inr ⟨ticksThenCycle n (freeInput 0) [], rfl⟩
/-- `withFetchWord` puts its cycle first, from reset and past pending ticks, so the timers are not ticked before it. -/
theorem test_withFetchWord_runs_next :
    after (step ((State.reset.setDelay 3#8).withFetchWord 16 0x6A2F)) (fun t => (t.reg 10, t.pc, t.delay)) =
      some (0x2F#8, 0x202#16, 3#8) ∧
    after (step (((State.reset.setDelay 3#8).setHost [.updateTimers]).withFetchWord 16 0xFA07)) (·.reg 10) = some 3#8 :=
  ⟨rfl, rfl⟩
/-- A program of two bytes, and the font below it. -/
theorem test_construct : (match State.construct (Vector.replicate 80 0xF0#8) [0x12#8, 0x00#8] with
    | .ok s => some (s.mem.readBytes 0x200 3, s.mem.read 0, s.mem.read 0x50, s.pc)
    | .error _ => none) = some ([0x12#8, 0#8, 0#8], 0xF0#8, 0#8, 0x200#16) := by decide

/-! ## Witnesses: concrete inputs that meet the hypotheses of a statement, one a clause, at the ends of their ranges -/

theorem witness_DecodeOfEncode : (Instr.machineSubroutine 0xFFF#12).wellFormed = true := by decide
theorem witness_EncodeOfDecode : decode 0x8ABE#16 = .ok (.shiftLeft 0xA 0xB) := by decide

/-- The reset state with a word at the last address a fetch can reach. -/
def lastWord (hi lo : Byte) (ts : List Transaction) : State :=
  { State.reset with pc := 0xFFE#16, mem := State.reset.mem.writeBytes 0xFFE [hi, lo], host := ts }

theorem witness_StepRuns_pending : (lastWord 0x12#8 0x34#8 [.cycle (inputs [] [])]).pc.toNat + 2 ≤ 4096 ∧
    (0x1234#16).toNat = ((lastWord 0x12#8 0x34#8 [.cycle (inputs [] [])]).mem.read 0xFFE).toNat * 256 +
      ((lastWord 0x12#8 0x34#8 [.cycle (inputs [] [])]).mem.read 0xFFF).toNat ∧
    decode 0x1234#16 = .ok (.jump 0x234#12) ∧
    (lastWord 0x12#8 0x34#8 [.cycle (inputs [] [])]).host = .cycle (inputs [] []) :: [] := by decide
theorem witness_StepRuns_free : (lastWord 0x12#8 0x34#8 []).pc.toNat + 2 ≤ 4096 ∧
    (0x1234#16).toNat = ((lastWord 0x12#8 0x34#8 []).mem.read 0xFFE).toNat * 256 +
      ((lastWord 0x12#8 0x34#8 []).mem.read 0xFFF).toNat ∧
    decode 0x1234#16 = .ok (.jump 0x234#12) ∧ (lastWord 0x12#8 0x34#8 []).host = [] := by decide
theorem witness_FetchError_fetch : ({ State.reset with pc := 0xFFF#16, host := [.cycle (inputs [] [])] } : State).cycleIsNext ∧
    (0xFFF#16).toNat + 2 > 4096 := ⟨.inl ⟨_, _, rfl⟩, by decide⟩
theorem witness_FetchError_decode : (lastWord 0x51#8 0x21#8 [.cycle (inputs [] [])]).cycleIsNext ∧
    (lastWord 0x51#8 0x21#8 [.cycle (inputs [] [])]).pc.toNat + 2 ≤ 4096 ∧
    (0x5121#16).toNat = ((lastWord 0x51#8 0x21#8 [.cycle (inputs [] [])]).mem.read 0xFFE).toNat * 256 +
      ((lastWord 0x51#8 0x21#8 [.cycle (inputs [] [])]).mem.read 0xFFF).toNat ∧
    decode 0x5121#16 = .error (.unknownInstruction 0x5121#16) := ⟨.inl ⟨_, _, rfl⟩, by decide⟩
theorem witness_PendingTick : (State.reset.setHost [.updateTimers]).host = .updateTimers :: [] := rfl
/-- Each error of R230 at the first operands that raise it. -/
theorem witness_ExecuteErrors_some : executeError State.reset (.machineSubroutine 0#12) = some (.unknownMachineSubroutine 0#12) ∧
    executeError (stacked 0 0#16) .ret = some .emptyStackReturn ∧
    executeError (stacked 12 0#16) (.call 0#12) = some .stackOverflow ∧
    executeError (State.reset.setI 0xFF2#16) (.draw 0 0 15#4) = some (.spriteOutOfBounds 0xFF2#16 15#4) ∧
    executeError (State.reset.setI 0xFFE#16) (.storeBCD 0) = some (.memoryOutOfBounds 0xFFE#16 3) ∧
    executeError (State.reset.setI 0x1000#16) (.loadRegisters 0) = some (.memoryOutOfBounds 0x1000#16 1) ∧
    executeError (regs [(1, 0x10#8)]) (.skipKeyPressed 1) = some (.keyIndexOutOfRange 0x10#8) := by decide
/-- And the last operands that do not. -/
theorem witness_ExecuteErrors_none : executeError (stacked 1 0#16) .ret = none ∧
    executeError (stacked 11 0#16) (.call 0#12) = none ∧
    executeError (State.reset.setI 0xFF1#16) (.draw 0 0 15#4) = none ∧
    executeError (State.reset.setI 0xFFD#16) (.storeBCD 0) = none ∧
    executeError (State.reset.setI 0xFF0#16) (.storeRegisters 15) = none ∧
    executeError (regs [(1, 0xF#8)]) (.skipKeyNotPressed 1) = none := by decide
theorem witness_FailedCycle : transact (.cycle (inputs [] [])) State.reset =
    (State.reset, .error (.unknownMachineSubroutine 0#12)) := by decide
theorem witness_StepIsTransaction : (State.reset.setHost [.updateTimers]).host = .updateTimers :: [] ∧
    (State.reset.setHost [.cycle (inputs [] [])]).host = .cycle (inputs [] []) :: [] := ⟨rfl, rfl⟩
theorem witness_StepForgets_cycle : (State.reset.setHost [.cycle (inputs [] [])]).cycleIsNext := .inl ⟨_, _, rfl⟩
theorem witness_StepForgets_tick : ¬ (State.reset.setHost [.updateTimers]).cycleIsNext := by
  simp [State.cycleIsNext, State.setHost]
theorem witness_StepKeepsMemory : (lastWord 0x12#8 0x34#8 [.cycle (inputs [] [])]).memoryCanonical ∧
    ∃ t, step (lastWord 0x12#8 0x34#8 [.cycle (inputs [] [])]) = .next t := ⟨by unfold State.memoryCanonical; decide, _, rfl⟩
theorem witness_StepKeepsPc : (lastWord 0x12#8 0x34#8 [.cycle (inputs [] [])]).pcInRange ∧
    ∃ t, step (lastWord 0x12#8 0x34#8 [.cycle (inputs [] [])]) = .next t := ⟨⟨by decide, by decide⟩, _, rfl⟩
theorem witness_ResetStateIsAsConstructed : ∃ font : Vector Byte 80, font.toList = defaultFont := ⟨⟨defaultFont.toArray, by decide⟩, rfl⟩
theorem witness_Construct : (List.replicate 3584 0#8 : List Byte).length ≤ 3584 ∧ (List.replicate 3585 0#8 : List Byte).length > 3584 := by
  simp only [List.length_replicate]; decide
theorem witness_RegistersChange : (∃ t, exec (.addRegister 1 2) State.reset = .next t) ∧ ¬ writesReg (.addRegister 1 2) 14 :=
  ⟨⟨_, rfl⟩, by simp [writesReg]⟩
/-- The shifts' VX, not read but written; a register neither read nor written; an `FX0A` that stalls; a fault. -/
theorem witness_UnreadRegisters : ¬ readsReg (.shiftRight 1 2) 1 ∧ (∃ t, exec (.shiftRight 1 2) State.reset = .next t) ∧
    writesReg (.shiftRight 1 2) 1 ∧ ¬ State.reset.stalls (.shiftRight 1 2) ∧
    ¬ readsReg (.shiftRight 1 2) 3 ∧ ¬ writesReg (.shiftRight 1 2) 3 ∧
    ¬ readsReg (.waitForKey 1) 1 ∧ (∃ t, exec (.waitForKey 1) State.reset = .next t) ∧ State.reset.stalls (.waitForKey 1) ∧
    ¬ readsReg .ret 0 ∧ exec .ret State.reset = .fault .emptyStackReturn :=
  ⟨by simp [readsReg], ⟨_, rfl⟩, by simp [writesReg], by simp [State.stalls], by simp [readsReg], by simp [writesReg], id,
    ⟨_, rfl⟩, ⟨⟨_, rfl⟩, by decide⟩, id, rfl⟩
theorem witness_Inputs : sameInputsFor (.loadRandom 1 0xFF#8) State.reset.input (inputs [1] [2]) ∧
    (∃ t, exec (.loadRandom 1 0xFF#8) State.reset = .next t) ∧ sameInputsFor .ret State.reset.input (inputs [1] [2] 3#8) ∧
    exec .ret State.reset = .fault .emptyStackReturn := ⟨rfl, ⟨_, rfl⟩, trivial, rfl⟩
theorem witness_OnlyStores : (∃ t, exec .clear State.reset = .next t) ∧ ¬ storesMemory .clear := ⟨⟨_, rfl⟩, by simp [storesMemory]⟩
theorem witness_OnlyDraws : (∃ t, exec (.jump 0#12) State.reset = .next t) ∧ ¬ drawsScreen (.jump 0#12) :=
  ⟨⟨_, rfl⟩, by simp [drawsScreen]⟩
theorem witness_OnlyCallAndReturn : ¬ usesStack (.jump 0#12) ∧ (∃ t, exec (.jump 0#12) State.reset = .next t) ∧
    ¬ usesStack (.machineSubroutine 0#12) ∧
    exec (.machineSubroutine 0#12) State.reset = .fault (.unknownMachineSubroutine 0#12) :=
  ⟨by simp [usesStack], ⟨_, rfl⟩, by simp [usesStack], rfl⟩
theorem witness_Timers : (∃ t, exec .clear State.reset = .next t) ∧ (∀ x, Instr.clear ≠ .setDelay x) ∧
    (∀ x, Instr.clear ≠ .setSound x) ∧ (∀ x, Instr.clear ≠ .loadDelay x) ∧
    (∃ t, exec (.setDelay 1) State.reset = .next t) ∧ (∃ t, exec (.setSound 1) State.reset = .next t) ∧
    (∃ t, exec (.loadDelay 1) State.reset = .next t) ∧ exec .ret State.reset = .fault .emptyStackReturn :=
  ⟨⟨_, rfl⟩, nofun, nofun, nofun, ⟨_, rfl⟩, ⟨_, rfl⟩, ⟨_, rfl⟩, rfl⟩
theorem witness_PcOutcomes : ∃ t, exec .ret (stacked 12 0xFFE#16) = .next t := ⟨_, rfl⟩
theorem witness_MachineSubroutine : (0x0FFF#16).toNat = (0xFFF#12).toNat ∧ (0x0FFF#16) ≠ 0x00E0#16 ∧ (0x0FFF#16) ≠ 0x00EE#16 ∧
    (lastWord 0x0F#8 0xFF#8 []).fetchWord = some 0x0FFF#16 := by decide
theorem witness_Call : (stacked 0 0#16).sp.val < 12 ∧ (stacked 11 0#16).sp.val < 12 ∧ (stacked 12 0#16).sp.val = 12 := by decide
theorem witness_Return : (stacked 1 0#16).sp.val = (0 : Fin 12).val + 1 ∧ (stacked 12 0#16).sp.val = (11 : Fin 12).val + 1 ∧
    (stacked 0 0#16).sp.val = 0 := by decide
theorem witness_CallThenReturn : ∃ t u, exec (.call 0x300#12) (stacked 11 0#16) = .next t ∧ ¬ usesStack (.jump 0x400#12) ∧
    exec (.jump 0x400#12) t = .next u := ⟨_, _, rfl, by simp [usesStack], rfl⟩
theorem witness_FlagWriters : (14 : Reg) ≠ 15 := by decide
theorem witness_StoreBCD : (State.reset.setI 0xFFD#16).i.toNat + 3 ≤ 4096 ∧ (State.reset.setI 0xFFD#16).memoryCanonical ∧
    (State.reset.setI 0xFFE#16).i.toNat + 3 > 4096 := ⟨by decide, rfl, by decide⟩
theorem witness_StoreLoadRegisters : (State.reset.setI 0xFF0#16).i.toNat + (15 : Reg).val + 1 ≤ 4096 ∧
    (State.reset.setI 0xFFF#16).i.toNat + (0 : Reg).val + 1 ≤ 4096 ∧ (State.reset.setI 0xFF0#16).memoryCanonical ∧
    (State.reset.setI 0xFF1#16).i.toNat + (15 : Reg).val + 1 > 4096 ∧ (15 : Reg) ≤ 15 := ⟨by decide, by decide, rfl, by decide, by decide⟩
theorem witness_LoadAfterStore : (State.reset.setI 0xFF0#16).memoryCanonical ∧
    ∃ t, exec (.storeRegisters 15) (State.reset.setI 0xFF0#16) = .next t := ⟨rfl, _, rfl⟩

/-- V0 and V1 hold the word 1206, and I points at the last two bytes of memory. -/
def storesLast : State := (regs [(0, 0x12#8), (1, 0x06#8)]).setI 0xFFE#16

/-- A word of two stored bytes at the end of memory. -/
theorem witness_StoredBytes_registers : storesLast.memoryCanonical ∧ (∃ t, exec (.storeRegisters 1) storesLast = .next t ∧
    ({ t with pc := 0xFFE#16, host := [.cycle (inputs [] [])] } : State).mem = t.mem) ∧ (0xFFE#16).toNat + 2 ≤ 4096 ∧
    decode (wordOfBytes (storesLast.byteAfterRegisters 1 0xFFE) (storesLast.byteAfterRegisters 1 0xFFF)) = .ok (.jump 0x206#12) :=
  ⟨rfl, ⟨_, rfl, rfl⟩, by decide, by decide⟩

/-- 0x7B is 123: the stored hundreds digit after an old byte 0, and two stored digits. -/
theorem witness_StoredBytes_BCD : ((regs [(5, 0x7B#8)]).setI 0x301#16).memoryCanonical ∧
    (∃ t, exec (.storeBCD 5) ((regs [(5, 0x7B#8)]).setI 0x301#16) = .next t ∧
      ({ t with pc := 0x300#16, host := [.cycle (inputs [] [])] } : State).mem = t.mem) ∧
    decode (wordOfBytes (((regs [(5, 0x7B#8)]).setI 0x301#16).byteAfterBCD 5 0x300)
      (((regs [(5, 0x7B#8)]).setI 0x301#16).byteAfterBCD 5 0x301)) = .ok (.machineSubroutine 0x001#12) ∧
    decode (wordOfBytes (((regs [(5, 0x7B#8)]).setI 0x301#16).byteAfterBCD 5 0x302)
      (((regs [(5, 0x7B#8)]).setI 0x301#16).byteAfterBCD 5 0x303)) = .ok (.machineSubroutine 0x203#12) :=
  ⟨rfl, ⟨_, rfl, rfl⟩, by decide, by decide⟩

/-- The last column and the last row of the screen, a pixel beside the sprite, and an empty sprite. -/
theorem witness_DrawSprite : (63 : Nat) = (0xFF#8).toNat % 64 ∧ (31 : Nat) = (0xFF#8).toNat % 32 ∧
    0 < [0x80#8].length ∧ 0 < 8 ∧ 63 + 0 < 64 ∧ 31 + 0 < 32 ∧ (62 : Nat) < 63 ∧ ([] : List Byte) = [] := by decide
theorem witness_DrawXors : (State.reset.setI 0x1000#16).i.toNat + (0#4).toNat ≤ 4096 ∧
    (State.reset.setI 0xFF1#16).i.toNat + (15#4).toNat ≤ 4096 ∧ (63 : Nat) < 64 ∧ (31 : Nat) < 32 := by decide
theorem witness_DrawingTwice : (0 : Reg) ≠ 15 ∧ (14 : Reg) ≠ 15 ∧
    ∃ t, exec (.draw 0 14 15#4) (State.reset.setI 0xFF1#16) = .next t := ⟨by decide, by decide, _, rfl⟩
theorem witness_ScreenPixels : (63 : Nat) < 64 ∧ (31 : Nat) < 32 ∧ ((64 : Nat) ≤ 64 ∨ (32 : Nat) ≤ 0) ∧
    ((64 : Nat) ≤ 0 ∨ (32 : Nat) ≤ 32) := by decide
theorem witness_KeySkips : ((regs [(1, 0xF#8)]).reg 1).toNat = (15 : Fin 16).val ∧
    ((regs [(1, 0x10#8)]).reg 1).toNat > 0xF := by decide
theorem witness_WaitForKey_none : ∀ k : Fin 16, ¬ ((State.reset.setInput (inputs [4] [])).input.previous[k] = true ∧
    (State.reset.setInput (inputs [4] [])).input.current[k] = false) := by decide
theorem witness_WaitForKey_some : (State.reset.setInput (inputs [] [14, 15])).input.previous[(14 : Fin 16)] = true ∧
    (State.reset.setInput (inputs [] [14, 15])).input.current[(14 : Fin 16)] = false ∧
    ∀ j : Fin 16, j < 14 → ¬ ((State.reset.setInput (inputs [] [14, 15])).input.previous[j] = true ∧
      (State.reset.setInput (inputs [] [14, 15])).input.current[j] = false) := by decide
theorem witness_UpdateTimers : ((State.reset.setDelay 1#8).setSound 1#8).delay.toNat > 0 ∧
    ((State.reset.setDelay 1#8).setSound 1#8).sound.toNat > 0 ∧ State.reset.delay.toNat = 0 ∧ State.reset.sound.toNat = 0 := by
  decide
/-- No tick and more ticks than the timers hold; with nothing pending `witness_StepRuns_free` serves. -/
theorem witness_AnyNumberOfTicks : (lastWord 0x12#8 0x34#8 [.cycle (inputs [] [])]).pc.toNat + 2 ≤ 4096 ∧
    (0x1234#16).toNat = ((lastWord 0x12#8 0x34#8 []).mem.read 0xFFE).toNat * 256 +
      ((lastWord 0x12#8 0x34#8 []).mem.read 0xFFF).toNat ∧
    decode 0x1234#16 = .ok (.jump 0x234#12) ∧
    (lastWord 0x12#8 0x34#8 [.cycle (inputs [] [])]).host = ticksThenCycle 0 (inputs [] []) [] ∧
    (lastWord 0x12#8 0x34#8 [.updateTimers, .cycle (inputs [] [])]).host = ticksThenCycle 1 (inputs [] []) [] := by decide

end Sys2Proof.Tests
end

/-! Decode totality (spec/30_encoding.md R74): the only error the decoder has for a word is `UnknownInstruction` of that word.
One lemma per family that rejects words, then the whole decoder. -/

namespace Sys2Proof

variable {w : Word} {e : DecodeError}

theorem decodeFamily8_error (h : decodeFamily8 w = .error e) : e = .unknownInstruction w := by
  unfold decodeFamily8 at h
  split at h <;> cases h
  rfl

theorem decodeFamilyE_error (h : decodeFamilyE w = .error e) : e = .unknownInstruction w := by
  unfold decodeFamilyE at h
  split at h <;> cases h
  rfl

theorem decodeFamilyF_error (h : decodeFamilyF w = .error e) : e = .unknownInstruction w := by
  unfold decodeFamilyF at h
  split at h <;> cases h
  rfl

/-- Only the families 5, 8, 9, E and F have errors; 5 and 9 look at the low nibble themselves. -/
theorem decode_error (h : decode w = .error e) : e = .unknownInstruction w := by
  unfold decode at h
  split at h
  case h_6 | h_10 =>
    split at h <;> cases h
    rfl
  case h_9 => exact decodeFamily8_error h
  case h_15 => exact decodeFamilyE_error h
  case h_16 => exact decodeFamilyF_error h
  all_goals cases h

/-- Settles O3: a word that decodes to no instruction has an error, and by `decode_error` it carries the word. -/
theorem everyWordDecodesOrIsUnknown : Obligations.EveryWordDecodesOrIsUnknown := by
  intro w
  cases h : decode w with
  | ok i => exact .inl ⟨⟨i, rfl⟩, nofun⟩
  | error e =>
    cases decode_error h
    exact .inr ⟨rfl, nofun⟩

end Sys2Proof

/-! The words 0nnn (spec/41_control_flow.md R120): what they decode to, what that instruction does, and what the host sees of a cycle
that fails. -/

namespace Sys2Proof

/-- Row 3 of spec/30_encoding.md R76: family 0 but for the two whole words it matches first. -/
theorem decode_machineSubroutine {w : Word} {nnn : Addr12} (hw : w.toNat = nnn.toNat) (hClear : w ≠ 0x00E0#16)
    (hRet : w ≠ 0x00EE#16) : decode w = .ok (.machineSubroutine nnn) := by
  have hop : (opField w).toNat = 0 := by
    rw [opField_toNat, hw]
    exact Nat.div_eq_of_lt nnn.isLt
  have hnnn : nnnField w = nnn := by
    apply BitVec.eq_of_toNat_eq
    rw [nnnField_toNat, hw]
    exact Nat.mod_eq_of_lt nnn.isLt
  simp [decode, hop, decodeFamily0, hClear, hRet, hnnn]

namespace Machine

@[simp] theorem exec_machineSubroutine (nnn : Addr12) (s : State) :
    exec (.machineSubroutine nnn) s = .fault (.unknownMachineSubroutine nnn) := rfl

/-- The inputs of a cycle have no part in the fetch. -/
@[simp] theorem State.setInput_fetchWord (s : State) (inp : CycleInput) : (s.setInput inp).fetchWord = s.fetchWord := rfl

/-- A transaction that fails leaves the whole state as it was (spec/40_cycle.md R106). -/
theorem transact_fault {t : Transaction} {s : State} {e : Fault} (h : perform t s = .fault e) :
    transact t s = (s, .error e) := by
  simp [transact, h]

end Machine

open Machine in
/-- Settles O27: 0NNN faults on every state, and a fetched word 0nnn decodes to it whatever the inputs. -/
theorem machineSubroutineAlwaysFails : Obligations.MachineSubroutineAlwaysFails := by
  intro nnn s
  refine ⟨exec_machineSubroutine nnn s, fun w hw hClear hRet hfetch inp => transact_fault ?_⟩
  have hfetch' : (s.setInput inp).fetchWord = some w := by rw [State.setInput_fetchWord, hfetch]
  rw [perform_cycle, runCycle_of_decode hfetch' (decode_machineSubroutine hw hClear hRet), exec_machineSubroutine]

end Sys2Proof

/-! The word 00E0 (spec/44_display.md R198): the one word that decodes to `Clear`, and everything the instruction does. -/

namespace Sys2Proof

variable {w : Word}

theorem decodeFamily0_eq_clear : decodeFamily0 w = .clear ↔ w = 0x00E0#16 := by
  unfold decodeFamily0
  split_ifs <;> simp [*]

theorem decodeFamily8_ne_clear : decodeFamily8 w ≠ .ok .clear := by
  unfold decodeFamily8
  split <;> nofun

theorem decodeFamilyE_ne_clear : decodeFamilyE w ≠ .ok .clear := by
  unfold decodeFamilyE
  split <;> nofun

theorem decodeFamilyF_ne_clear : decodeFamilyF w ≠ .ok .clear := by
  unfold decodeFamilyF
  split <;> nofun

/-- Only family 0 holds `Clear`, and there only as a whole word (spec/30_encoding.md R75, R78). -/
theorem decode_eq_clear : decode w = .ok .clear ↔ w = 0x00E0#16 := by
  constructor
  · intro h
    unfold decode at h
    split at h
    case h_1 => exact decodeFamily0_eq_clear.mp (Except.ok.inj h)
    case h_6 | h_10 => split at h <;> cases h
    case h_9 => exact absurd h decodeFamily8_ne_clear
    case h_15 => exact absurd h decodeFamilyE_ne_clear
    case h_16 => exact absurd h decodeFamilyF_ne_clear
    all_goals cases h
  · rintro rfl
    rfl

open Machine

/-- Everything a clear does. -/
theorem exec_clear_spec (s : State) :
    ∃ t, exec .clear s = .next t ∧ s.onlyScreenPc t ∧ t.pc = s.pc + 2#16 ∧ ∀ x y, pixel t.fb x y = false :=
  ⟨_, rfl, ⟨rfl, rfl, fun _ => rfl⟩, rfl, pixel_clearScreen⟩

/-- Settles O44: the word by `decode_eq_clear`, the state by `exec_clear_spec`. -/
theorem clearTurnsEveryPixelOff : Obligations.ClearTurnsEveryPixelOff := fun s =>
  ⟨fun _ => decode_eq_clear, exec_clear_spec s⟩

end Sys2Proof

/-! The host's bounds-checked pixel (spec/44_display.md R205). -/

namespace Sys2Proof

open Machine

variable {fb : Framebuffer} {x y : Nat}

/-- On the screen, column x of row y is bit x of the row's word. -/
theorem pixel_of_row (h : y < 32) : pixel fb x y = fb[y].getLsbD x := dif_pos h

theorem getPixel_inside (hx : x < 64) (hy : y < 32) : getPixel fb x y = .ok (pixel fb x y) := if_pos ⟨hx, hy⟩

theorem getPixel_outside (h : 64 ≤ x ∨ 32 ≤ y) : getPixel fb x y = .error (.screenOutOfBounds x y) :=
  if_neg (by simp only [screenW_eq, screenH_eq]; omega)

/-- Settles O48: `State.screenPixel` is `getPixel` of the state's screen, on both sides of its bounds. -/
theorem getPixelIsBoundsChecked : Obligations.GetPixelIsBoundsChecked := by
  intro s x y
  constructor
  · intro hx hy
    rw [State.screenPixel, getPixel_inside hx hy, pixel_of_row hy]
  · exact getPixel_outside

end Sys2Proof

/-! The raster algorithm (spec/44_display.md R192 to R196): `drawSprite` is `drawRows` on the part of the sprite that is on the screen,
so the laws of `drawRows` say which pixels it changes and when it collides. -/

namespace Sys2Proof.Machine

variable {fb : Framebuffer} {x y : Byte} {rows : List Byte}

/-- `draw_sprite` wraps the anchor, clips the sprite to the screen and draws the rest; the empty sprite is no exception. -/
theorem drawSprite_eq_drawRows (fb : Framebuffer) (x y : Byte) (rows : List Byte) :
    drawSprite fb x y rows =
      drawRows (x.toNat % 64) (min 8 (64 - x.toNat % 64)) (y.toNat % 32)
        (rows.take (min rows.length (32 - y.toNat % 32))) (fb, false) := by
  cases rows <;> rfl

/-- The pixel that a sprite bit lies over takes the XOR with it, inside the screen. -/
theorem pixel_drawSprite_inside {r c : Nat} (hr : r < rows.length) (hc : c < 8) (hx : x.toNat % 64 + c < 64)
    (hy : y.toNat % 32 + r < 32) :
    pixel (drawSprite fb x y rows).1 (x.toNat % 64 + c) (y.toNat % 32 + r) =
      (pixel fb (x.toNat % 64 + c) (y.toNat % 32 + r) ^^ rows[r].getLsbD (7 - c)) := by
  rw [drawSprite_eq_drawRows, pixel_drawRows _ (by omega) (by rw [List.length_take]; omega),
    dif_pos (by rw [List.length_take]; omega)]
  simp

/-- A pixel outside the sprite's rectangle stays. -/
theorem pixel_drawSprite_outside {px py : Nat} (h : px < x.toNat % 64 ∨ x.toNat % 64 + 8 ≤ px ∨ py < y.toNat % 32 ∨
      y.toNat % 32 + rows.length ≤ py) :
    pixel (drawSprite fb x y rows).1 px py = pixel fb px py := by
  rw [drawSprite_eq_drawRows, pixel_drawRows _ (by omega) (by rw [List.length_take]; omega),
    dif_neg (by rw [List.length_take]; omega)]

/-- The collision of a sprite: a bit 1 inside the screen lies over a pixel that was on. -/
theorem collision_drawSprite :
    (drawSprite fb x y rows).2 = true ↔
      ∃ r c, ∃ hr : r < rows.length, c < 8 ∧ x.toNat % 64 + c < 64 ∧ y.toNat % 32 + r < 32 ∧
        pixel fb (x.toNat % 64 + c) (y.toNat % 32 + r) = true ∧ rows[r].getLsbD (7 - c) = true := by
  rw [drawSprite_eq_drawRows, collision_drawRows _ (by omega) (by rw [List.length_take]; omega)]
  constructor
  · rintro (h | ⟨r, c, hr, hc, hon, hbit⟩)
    · cases h
    · rw [List.length_take] at hr
      rw [List.getElem_take] at hbit
      exact ⟨r, c, by omega, by omega, by omega, by omega, hon, hbit⟩
  · rintro ⟨r, c, hr, hc, hx, hy, hon, hbit⟩
    exact .inr ⟨r, c, by rw [List.length_take]; omega, by omega, hon, by rw [List.getElem_take]; exact hbit⟩

end Sys2Proof.Machine

namespace Sys2Proof

open Machine

/-- Settles O45: the laws of `drawSprite` above, at the wrapped anchor. -/
theorem drawSpriteIsTheRasterAlgorithm : Obligations.DrawSpriteIsTheRasterAlgorithm := by
  rintro fb x y rows _ _ rfl rfl
  refine ⟨?empty, fun _ _ => pixel_drawSprite_inside, fun _ _ => pixel_drawSprite_outside, collision_drawSprite⟩
  case empty => rintro rfl; rfl

end Sys2Proof

/-! `update_timers` (spec/60_exceptions.md R245), by the laws `updateTimers_eq` (both timers tick, the frame) and `tickDown_toNat`
(a tick is one less, floored at 0). -/

namespace Sys2Proof

namespace Machine

/-- A tick takes one from the delay timer, floored at 0 (R245). -/
theorem updateTimers_delay_toNat (s : State) : (updateTimers s).delay.toNat = s.delay.toNat - 1 := by
  rw [updateTimers_eq, tickDown_toNat]

/-- A tick takes one from the sound timer, floored at 0 (R245). -/
theorem updateTimers_sound_toNat (s : State) : (updateTimers s).sound.toNat = s.sound.toNat - 1 := by
  rw [updateTimers_eq, tickDown_toNat]

/-- A transaction that succeeds replies Ok with its next state (spec/40_cycle.md R100); the counterpart of `transact_fault`. -/
theorem transact_next {t : Transaction} {s s' : State} (h : perform t s = .next s') : transact t s = (s', .ok) := by
  simp [transact, h]

end Machine

open Machine in
/-- Settles O53: the frame by `updateTimers_eq`, each timer by its floored difference, the reply because a tick always performs. -/
theorem updateTimersTakesOneFlooredAtZero : Obligations.UpdateTimersTakesOneFlooredAtZero := by
  intro s
  have hd := updateTimers_delay_toNat s
  have hs := updateTimers_sound_toNat s
  refine ⟨?frame, ?delayAbove, ?delayAtZero, ?soundAbove, ?soundAtZero, transact_next (perform_updateTimers s)⟩
  case frame => rw [updateTimers_eq]
  all_goals omega

end Sys2Proof

/-! The round trips of the encoding (spec/30_encoding.md section 3, 4): a decoder that has dispatched on the fields of a format reads
back what the format was made of, and a word is the encoding of its fields. -/

namespace Sys2Proof

/-- A word of format `A` with a known opcode. -/
theorem encodeA_eq {w : Word} {op : Nibble} (hop : (opField w).toNat = op.toNat) : encodeA op (nnnField w) = w := by
  rw [← BitVec.eq_of_toNat_eq hop, encodeA_fields]

/-- A word of format `XI` with a known opcode. -/
theorem encodeXI_eq {w : Word} {op : Nibble} (hop : (opField w).toNat = op.toNat) :
    encodeXI op (xField w) (nnField w) = w := by
  rw [← BitVec.eq_of_toNat_eq hop, encodeXI_fields]

/-- A word of format `X` with a known opcode and low byte. -/
theorem encodeX_eq {w : Word} {op : Nibble} {nn : Byte} (hop : (opField w).toNat = op.toNat)
    (hnn : (nnField w).toNat = nn.toNat) : encodeXI op (xField w) nn = w := by
  rw [← BitVec.eq_of_toNat_eq hnn, encodeXI_eq hop]

/-- A word of format `XYN` with a known opcode. -/
theorem encodeXYN_eq {w : Word} {op : Nibble} (hop : (opField w).toNat = op.toNat) :
    encodeXY op (xField w) (yField w) (nField w) = w := by
  rw [← BitVec.eq_of_toNat_eq hop, encodeXY_fields]

/-- A word of format `XY` with a known opcode and low nibble. -/
theorem encodeXY_eq {w : Word} {op n : Nibble} (hop : (opField w).toNat = op.toNat)
    (hn : (nField w).toNat = n.toNat) : encodeXY op (xField w) (yField w) n = w := by
  rw [← BitVec.eq_of_toNat_eq hn, encodeXYN_eq hop]

/-- Family 0: the word of a machine-subroutine call is its operand, and the two words that are none are matched before it. -/
theorem encode_decodeFamily0 {w : Word} (hop : (opField w).toNat = 0x0) :
    encode (decodeFamily0 w) = w ∧ (decodeFamily0 w).wellFormed = true := by
  unfold decodeFamily0
  split_ifs with hClear hRet
  · exact ⟨hClear.symm, rfl⟩
  · exact ⟨hRet.symm, rfl⟩
  · have hw : encodeA 0x0#4 (nnnField w) = w := encodeA_eq hop
    refine ⟨hw, ?_⟩
    simp only [Instr.wellFormed, Bool.and_eq_true, bne_iff_ne]
    exact ⟨fun h => hClear (by rw [← hw, h]; rfl), fun h => hRet (by rw [← hw, h]; rfl)⟩

theorem encode_of_decodeFamily8 {w : Word} {i : Instr} (hop : (opField w).toNat = 0x8) (h : decodeFamily8 w = .ok i) :
    encode i = w ∧ i.wellFormed = true := by
  unfold decodeFamily8 at h
  split at h <;> cases h
  all_goals exact ⟨encodeXY_eq hop ‹_›, rfl⟩

theorem encode_of_decodeFamilyE {w : Word} {i : Instr} (hop : (opField w).toNat = 0xE) (h : decodeFamilyE w = .ok i) :
    encode i = w ∧ i.wellFormed = true := by
  unfold decodeFamilyE at h
  split at h <;> cases h
  all_goals exact ⟨encodeX_eq hop ‹_›, rfl⟩

theorem encode_of_decodeFamilyF {w : Word} {i : Instr} (hop : (opField w).toNat = 0xF) (h : decodeFamilyF w = .ok i) :
    encode i = w ∧ i.wellFormed = true := by
  unfold decodeFamilyF at h
  split at h <;> cases h
  all_goals exact ⟨encodeX_eq hop ‹_›, rfl⟩

/-- Settles O2: `decode` splits the word by its high nibble, and each format puts the fields it read together again. -/
theorem encodeOfDecodeIsTheWord : Obligations.EncodeOfDecodeIsTheWord := by
  intro w i h
  unfold decode at h
  split at h
  case h_1 hop => exact Except.ok.inj h ▸ encode_decodeFamily0 hop
  case h_2 hop | h_3 hop | h_11 hop | h_12 hop => cases h; exact ⟨encodeA_eq hop, rfl⟩
  case h_4 hop | h_5 hop | h_7 hop | h_8 hop | h_13 hop => cases h; exact ⟨encodeXI_eq hop, rfl⟩
  case h_6 hop | h_10 hop =>
    split at h <;> cases h
    rename_i hn
    exact ⟨encodeXY_eq hop (congrArg BitVec.toNat hn), rfl⟩
  case h_9 hop => exact encode_of_decodeFamily8 hop h
  case h_14 hop => cases h; exact ⟨encodeXYN_eq hop, rfl⟩
  case h_15 hop => exact encode_of_decodeFamilyE hop h
  case h_16 =>
    have hop : (opField w).toNat = 0xF := by have := (opField w).isLt; simp only [imp_false] at *; omega
    exact encode_of_decodeFamilyF hop h

/-- A well-formed machine-subroutine call is none of the two words of family 0 that `decode` matches first. -/
theorem decode_encode_machineSubroutine {nnn : Addr12} (h : (Instr.machineSubroutine nnn).wellFormed = true) :
    decode (encode (.machineSubroutine nnn)) = .ok (.machineSubroutine nnn) := by
  simp only [Instr.wellFormed, Bool.and_eq_true, bne_iff_ne] at h
  obtain ⟨hClear, hRet⟩ := h
  have hw : (encode (.machineSubroutine nnn)).toNat = nnn.toNat := by simp [encode, encodeA_toNat]
  refine decode_machineSubroutine hw (fun he => hClear ?_) (fun he => hRet ?_)
  all_goals exact BitVec.eq_of_toNat_eq (by rw [← hw, he]; rfl)

/-- Decoding reads back every operand: the fields of the formats, once the opcode and sub-opcode are dispatched on. -/
theorem decode_encode {i : Instr} (h : i.wellFormed = true) : decode (encode i) = .ok i := by
  cases i
  case clear | ret => rfl
  case machineSubroutine => exact decode_encode_machineSubroutine h
  case jump | call | loadIndex | jumpAdd | skipEqualImmediate | skipNotEqualImmediate | loadImmediate | addImmediate | loadRandom
      | skipEqualRegister | skipNotEqualRegister | draw =>
    simp [encode, decode]
  case skipKeyPressed | skipKeyNotPressed => simp [encode, decode, decodeFamilyE]
  case loadRegister | or | and | xor | addRegister | subRegisterXY | shiftRight | subRegisterYX | shiftLeft =>
    simp [encode, decode, decodeFamily8]
  all_goals simp [encode, decode, decodeFamilyF]

/-- Settles O1: the word by `decode_encode`, its two bytes in memory order by `decodeBytes_bytesOfWord`. -/
theorem decodeOfEncodeIsTheInstruction : Obligations.DecodeOfEncodeIsTheInstruction := by
  intro i h
  refine ⟨decode_encode h, fun rest => ?_⟩
  rw [decodeBytes_bytesOfWord, decode_encode h]
  rfl

/-! The words that `decode` rejects (spec/30_encoding.md R77), family by family. -/

section
variable {w : Word}

theorem decodeFamily8_isError_iff : decodeFamily8 w = .error (.unknownInstruction w) ↔
    (nField w).toNat ∈ [0x8, 0x9, 0xA, 0xB, 0xC, 0xD, 0xF] := by
  have := (nField w).isLt
  unfold decodeFamily8
  split
  case h_10 => simp only [List.mem_cons, List.not_mem_nil, or_false, true_iff, imp_false] at *; omega
  all_goals simp [*]

theorem decodeFamilyE_isError_iff : decodeFamilyE w = .error (.unknownInstruction w) ↔
    (nnField w).toNat ∉ [0x9E, 0xA1] := by
  unfold decodeFamilyE
  split
  case h_3 hPressed hNotPressed => simpa using ⟨hPressed, hNotPressed⟩
  all_goals simp [*]

theorem decodeFamilyF_isError_iff : decodeFamilyF w = .error (.unknownInstruction w) ↔
    (nnField w).toNat ∉ [0x07, 0x0A, 0x15, 0x18, 0x1E, 0x29, 0x33, 0x55, 0x65] := by
  unfold decodeFamilyF
  split
  case h_10 => simp only [List.mem_cons, List.not_mem_nil, or_false, true_iff, imp_false] at *; omega
  all_goals simp [*]

end

/-- Settles O4: the families 5 and 9 look at the low nibble themselves, 8, E and F by the lemmas above; the rest rejects nothing. -/
theorem illegalWordsAreTheListedOnes : Obligations.IllegalWordsAreTheListedOnes := by
  intro w
  rw [← opField_toNat, ← nField_toNat, ← nnField_toNat]
  unfold decode
  split
  case h_6 hop | h_10 hop => split <;> simp_all [← BitVec.toNat_inj]
  case h_9 hop => simp [hop, decodeFamily8_isError_iff]
  case h_15 hop => simp [hop, decodeFamilyE_isError_iff]
  case h_16 =>
    have hop : (opField w).toNat = 0xF := by have := (opField w).isLt; simp only [imp_false] at *; omega
    simp [hop, decodeFamilyF_isError_iff]
  all_goals simp [*]

/-- Settles O5: the twenty words of R81, each read by the decoder. -/
theorem specDecodeExamples : Obligations.SpecDecodeExamples := by
  unfold Obligations.SpecDecodeExamples
  decide

end Sys2Proof

/-! Execution in two halves (spec/40_cycle.md R103, 60_exceptions.md R230): `executeError` says when an instruction fails and with what,
`executeNext` the state in which it completes where it does not. Every rule over all instructions is then a fact about each half. -/

namespace Sys2Proof.Machine

/-- The state in which an instruction completes, its check left out: what it gives where `executeError` answers an error is of no
account. Tied to the model by `exec_eq_next`. -/
def executeNext (s : State) : Instr → State
  | .clear => (s.setFb clearScreen).commit .next
  | .ret => ({ s with sp := ⟨s.sp.val - 1, by have : s.sp.val < 13 := s.sp.isLt; simp only [stackDepth_eq]; omega⟩ } : State).commit
      (.set (s.stack[s.sp.val - 1]'(by have : s.sp.val < 13 := s.sp.isLt; simp only [stackDepth_eq]; omega) + 2#16))
  | .machineSubroutine _ => s
  | .jump nnn => s.commit (.set (zextAddr nnn))
  | .call nnn => ({ s with stack := s.stack.setIfInBounds s.sp.val s.pc, sp := Fin.ofNat 13 (s.sp.val + 1) } : State).commit
      (.set (zextAddr nnn))
  | .skipEqualImmediate x nn => s.commit (if s.reg x == nn then .skip else .next)
  | .skipNotEqualImmediate x nn => s.commit (if s.reg x != nn then .skip else .next)
  | .skipEqualRegister x y => s.commit (if s.reg x == s.reg y then .skip else .next)
  | .loadImmediate x nn => (s.setReg x nn).commit .next
  | .addImmediate x nn => (s.setReg x (s.reg x + nn)).commit .next
  | .loadRegister x y => (s.setReg x (s.reg y)).commit .next
  | .or x y => (s.setReg x (s.reg x ||| s.reg y)).commit .next
  | .and x y => (s.setReg x (s.reg x &&& s.reg y)).commit .next
  | .xor x y => (s.setReg x (s.reg x ^^^ s.reg y)).commit .next
  | .addRegister x y => (s.setRegFlag x (s.reg x + s.reg y) (carryOut (s.reg x) (s.reg y))).commit .next
  | .subRegisterXY x y => (s.setRegFlag x (s.reg x - s.reg y) (notBorrow (s.reg x) (s.reg y))).commit .next
  | .shiftRight x y => (s.setRegFlag x (s.reg y >>> 1) (lsbOut (s.reg y))).commit .next
  | .subRegisterYX x y => (s.setRegFlag x (s.reg y - s.reg x) (notBorrow (s.reg y) (s.reg x))).commit .next
  | .shiftLeft x y => (s.setRegFlag x (s.reg y <<< 1) (msbOut (s.reg y))).commit .next
  | .skipNotEqualRegister x y => s.commit (if s.reg x != s.reg y then .skip else .next)
  | .loadIndex nnn => (s.setI (zextAddr nnn)).commit .next
  | .jumpAdd nnn => s.commit (.set (s.jumpAddTarget nnn))
  | .loadRandom x nn => (s.setReg x (s.rnd &&& nn)).commit .next
  | .draw x y n =>
    let drawn := drawSprite s.fb (s.reg x) (s.reg y) (s.mem.readBytes s.i.toNat n.toNat)
    ((s.setFb drawn.1).setReg 15 (flagByte drawn.2)).commit .next
  | .skipKeyPressed x => s.commit (if s.keyDown (Fin.ofNat 16 (s.reg x).toNat) then .skip else .next)
  | .skipKeyNotPressed x => s.commit (if !s.keyDown (Fin.ofNat 16 (s.reg x).toNat) then .skip else .next)
  | .loadDelay x => (s.setReg x s.delay).commit .next
  | .waitForKey x =>
    ({ s with v := s.lowestFallingEdge.elim s.v fun k => s.v.set x (BitVec.ofNat 8 k.val) } : State).commit
      (s.lowestFallingEdge.elim .stay fun _ => .next)
  | .setDelay x => (s.setDelay (s.reg x)).commit .next
  | .setSound x => (s.setSound (s.reg x)).commit .next
  | .addIndex x => (s.setI (s.i + zextByte (s.reg x))).commit .next
  | .loadFont x => (s.setI (fontAddress (s.reg x))).commit .next
  | .storeBCD x => (s.setMem (s.mem.writeBytes s.i.toNat (bcdDigits (s.reg x)))).commit .next
  | .storeRegisters x => ((s.setMem (s.mem.writeBytes s.i.toNat (s.regsUpTo x))).advanceI x).commit .next
  | .loadRegisters x => ((s.loadRegs (s.mem.readBytes s.i.toNat (x.val + 1))).advanceI x).commit .next

variable {i : Instr} {s t : State} {e : Fault}

/-- `FX0A` that stalls (R215). -/
theorem executeNext_waitForKey_none {x : Reg} (h : s.lowestFallingEdge = none) : executeNext s (.waitForKey x) = s := by
  simp only [executeNext, h]
  rfl

/-- `FX0A` that completes (R215). -/
theorem executeNext_waitForKey_some {x : Reg} {k : Key} (h : s.lowestFallingEdge = some k) :
    executeNext s (.waitForKey x) = (s.setReg x (BitVec.ofNat 8 k.val)).commit .next := by
  simp only [executeNext, h]
  rfl

/-- `FX0A` never fails (R215). -/
theorem execWaitForKey_eq (x : Reg) (s : State) : execWaitForKey x s = .next (executeNext s (.waitForKey x)) := by
  unfold execWaitForKey
  cases h : s.lowestFallingEdge with
  | none => rw [executeNext_waitForKey_none h]; rfl
  | some k => rw [executeNext_waitForKey_some h]

/-- Where the table of R230 lists an error, the instruction fails with it. -/
theorem exec_of_executeError (h : executeError s i = some e) : exec i s = .fault e := by
  cases i
  case machineSubroutine nnn => cases h; rfl
  case ret => obtain ⟨hc, ⟨⟩⟩ := Option.ite_none_right_eq_some.mp h; exact execRet_none hc
  case call nnn => obtain ⟨hc, ⟨⟩⟩ := Option.ite_none_right_eq_some.mp h; exact execCall_none hc nnn
  case draw x y n => obtain ⟨hc, ⟨⟩⟩ := Option.ite_none_right_eq_some.mp h; exact execDraw_outside hc x y
  case storeBCD x => obtain ⟨hc, ⟨⟩⟩ := Option.ite_none_right_eq_some.mp h; exact execStoreBCD_outside hc x
  case storeRegisters x => obtain ⟨hc, ⟨⟩⟩ := Option.ite_none_right_eq_some.mp h; exact execStoreRegisters_outside hc
  case loadRegisters x => obtain ⟨hc, ⟨⟩⟩ := Option.ite_none_right_eq_some.mp h; exact execLoadRegisters_outside hc
  case skipKeyPressed x => obtain ⟨hc, ⟨⟩⟩ := Option.ite_none_right_eq_some.mp h; exact (execSkipKey_outOfRange hc).1
  case skipKeyNotPressed x => obtain ⟨hc, ⟨⟩⟩ := Option.ite_none_right_eq_some.mp h; exact (execSkipKey_outOfRange hc).2
  all_goals cases h

/-- Where it lists none, the instruction completes. -/
theorem exec_of_executeError_none (h : executeError s i = none) : exec i s = .next (executeNext s i) := by
  cases i
  case machineSubroutine => cases h
  case ret =>
    have hc : s.sp.val ≠ 0 := by simpa [executeError] using h
    obtain ⟨k, hk⟩ := s.sp_zero_or_top.resolve_left hc
    have hk' : s.sp.val - 1 = k.val := by omega
    refine (execRet_some k hk).trans ?_
    simp only [executeNext, hk']
    rfl
  case call nnn =>
    have hc : s.sp.val ≠ 12 := by simpa [executeError] using h
    have hroom := s.sp_room_or_full.resolve_right hc
    refine (execCall_some hroom nnn).trans ?_
    have hsp : (Fin.ofNat 13 (s.sp.val + 1)) = ⟨s.sp.val + 1, Nat.succ_lt_succ hroom⟩ :=
      Fin.ext (Nat.mod_eq_of_lt (by omega))
    have hstack : s.stack.setIfInBounds s.sp.val s.pc = s.stack.set s.sp.val s.pc hroom :=
      Vector.ext fun j hj => by rw [Vector.getElem_setIfInBounds hj, Vector.getElem_set]
    simp only [executeNext, hsp, hstack]
  case draw x y n => exact execDraw_inside (by simpa [executeError] using h) x y
  case storeBCD x => exact execStoreBCD_inside (by simpa [executeError] using h) x
  case storeRegisters x => exact execStoreRegisters_inside (by simpa [executeError] using h)
  case loadRegisters x => exact execLoadRegisters_inside (by simpa [executeError] using h)
  case skipKeyPressed x =>
    have hc : (s.reg x).toNat ≤ 0xF := by simpa [executeError] using h
    exact execSkipKeyPressed_key (Nat.mod_eq_of_lt (by omega)).symm
  case skipKeyNotPressed x =>
    have hc : (s.reg x).toNat ≤ 0xF := by simpa [executeError] using h
    exact execSkipKeyNotPressed_key (Nat.mod_eq_of_lt (by omega)).symm
  case waitForKey x => exact execWaitForKey_eq x s
  all_goals rfl

/-- Everything a successful execution can be. -/
theorem exec_eq_next : exec i s = .next t ↔ executeError s i = none ∧ executeNext s i = t := by
  cases h : executeError s i with
  | none => simp [exec_of_executeError_none h]
  | some e => simp [exec_of_executeError h]

/-- Everything a failed execution can be. -/
theorem exec_eq_fault : exec i s = .fault e ↔ executeError s i = some e := by
  cases h : executeError s i with
  | none => simp [exec_of_executeError_none h]
  | some e => simp [exec_of_executeError h]

theorem exec_ne_refused (r : Refusal) : exec i s ≠ .refused r := by
  cases h : executeError s i with
  | none => simp [exec_of_executeError_none h]
  | some e => simp [exec_of_executeError h]

/-- A change of the state that touches neither the check of an instruction nor, but for being carried over, its completion changes
nothing else in its outcome. -/
theorem exec_congr {f g : State → State} (hError : executeError (f s) i = executeError s i)
    (hNext : executeNext (f s) i = g (executeNext s i)) :
    (∀ t, exec i s = .next t → exec i (f s) = .next (g t)) ∧ (∀ e, exec i s = .fault e → exec i (f s) = .fault e) := by
  simp only [exec_eq_next, exec_eq_fault, hError, hNext]
  exact ⟨fun t ht => ⟨ht.1, congrArg g ht.2⟩, fun e he => he⟩

end Sys2Proof.Machine

namespace Sys2Proof

open Machine

/-- Settles O9: the two halves of `exec`. -/
theorem executeErrorsExactlyAsListed : Obligations.ExecuteErrorsExactlyAsListed := fun _ _ =>
  ⟨fun _ => exec_of_executeError, fun h => ⟨_, exec_of_executeError_none h⟩⟩

end Sys2Proof

/-! Rules over all instructions (spec/10_state.md R24, R31, R34 to R38; 20_memory.md R51; 40_cycle.md R103): for each field of the state a
frame, which says who writes it, and a transport, which says who reads it. An arm that neither reads nor writes the field is `rfl`. -/

namespace Sys2Proof.Machine

variable {i : Instr} {s t : State}

/-! Memory, the framebuffer and the stack: who writes them -/

/-- R51: all but the two stores keep memory. -/
theorem executeNext_mem (h : ¬ storesMemory i) : (executeNext s i).mem = s.mem := by
  cases i
  case storeBCD => exact absurd (.inl ⟨_, rfl⟩) h
  case storeRegisters => exact absurd (.inr ⟨_, rfl⟩) h
  case loadRegisters => simp [executeNext]
  all_goals rfl

/-- R38: all but 00E0 and DXYN keep the screen. -/
theorem executeNext_fb (h : ¬ drawsScreen i) : (executeNext s i).fb = s.fb := by
  cases i
  case clear => exact absurd (.inl rfl) h
  case draw => exact absurd (.inr ⟨_, _, _, rfl⟩) h
  case loadRegisters => simp [executeNext]
  all_goals rfl

/-- R31: all but 2NNN and 00EE keep the stack. -/
theorem executeNext_stack (h : ¬ usesStack i) : (executeNext s i).stack = s.stack ∧ (executeNext s i).sp = s.sp := by
  cases i
  case ret => exact absurd (.inl rfl) h
  case call => exact absurd (.inr ⟨_, rfl⟩) h
  case loadRegisters => simp [executeNext]
  all_goals exact ⟨rfl, rfl⟩

/-- R35: all but FX15 keep the delay timer. -/
theorem executeNext_delay (h : ∀ x, i ≠ .setDelay x) : (executeNext s i).delay = s.delay := by
  cases i
  case setDelay => exact absurd rfl (h _)
  case loadRegisters => simp [executeNext]
  all_goals rfl

/-- R35: all but FX18 keep the sound timer. -/
theorem executeNext_sound (h : ∀ x, i ≠ .setSound x) : (executeNext s i).sound = s.sound := by
  cases i
  case setSound => exact absurd rfl (h _)
  case loadRegisters => simp [executeNext]
  all_goals rfl

/-! The stack, the timers and the inputs: who reads them -/

/-- The state with another stack. -/
def State.setStack (s : State) (st : Vector Word 12) (p : Fin 13) : State := { s with stack := st, sp := p }

/-- The state with other timer values. -/
def State.setTimers (s : State) (d u : Byte) : State := { s with delay := d, sound := u }

theorem executeError_setStack (h : ¬ usesStack i) (st : Vector Word 12) (p : Fin 13) :
    executeError (s.setStack st p) i = executeError s i := by
  cases i
  case ret => exact absurd (.inl rfl) h
  case call => exact absurd (.inr ⟨_, rfl⟩) h
  all_goals rfl

theorem executeNext_setStack (h : ¬ usesStack i) (st : Vector Word 12) (p : Fin 13) :
    executeNext (s.setStack st p) i = (executeNext s i).setStack st p := by
  cases i
  case ret => exact absurd (.inl rfl) h
  case call => exact absurd (.inr ⟨_, rfl⟩) h
  all_goals rfl

/-- No check looks at a timer. -/
theorem executeError_setTimers (d u : Byte) : executeError (s.setTimers d u) i = executeError s i := by
  cases i <;> rfl

theorem executeNext_setTimers (hd : ∀ x, i ≠ .setDelay x) (hs : ∀ x, i ≠ .setSound x) (hl : ∀ x, i ≠ .loadDelay x)
    (d u : Byte) : executeNext (s.setTimers d u) i = (executeNext s i).setTimers d u := by
  cases i
  case setDelay => exact absurd rfl (hd _)
  case setSound => exact absurd rfl (hs _)
  case loadDelay => exact absurd rfl (hl _)
  all_goals rfl

/-- No check looks at the inputs. -/
theorem executeError_setInput (inp : CycleInput) : executeError (s.setInput inp) i = executeError s i := by
  cases i <;> rfl

/-- The lowest falling edge is read off the two key states. -/
theorem State.lowestFallingEdge_congr (hc : s.input.current = t.input.current) (hp : s.input.previous = t.input.previous) :
    s.lowestFallingEdge = t.lowestFallingEdge := by
  have he : s.fallingEdge = t.fallingEdge := by
    funext k
    simp only [State.fallingEdge, hc, hp]
  rw [State.lowestFallingEdge, State.lowestFallingEdge, he]

/-- R34, R210: the four instructions that read inputs read what the two input sets agree in. -/
theorem executeNext_setInput {inp : CycleInput} (h : sameInputsFor i s.input inp) :
    executeNext (s.setInput inp) i = (executeNext s i).setInput inp := by
  cases i
  case loadRandom =>
    have hr : (s.setInput inp).rnd = s.rnd := Eq.symm h
    simp only [executeNext, hr]
    rfl
  case skipKeyPressed | skipKeyNotPressed =>
    have hk : (s.setInput inp).keyDown = s.keyDown := by
      funext k
      simp only [State.keyDown, State.setInput_input, ← show s.input.current = inp.current from h]
    simp only [executeNext, hk]
    rfl
  case waitForKey =>
    have hl : (s.setInput inp).lowestFallingEdge = s.lowestFallingEdge :=
      State.lowestFallingEdge_congr h.1.symm h.2.symm
    simp only [executeNext, hl]
    rfl
  all_goals rfl

/-! The registers: who writes them -/

theorem State.setReg_reg_of_ne {x k : Reg} (h : k ≠ x) (b : Byte) : (s.setReg x b).reg k = s.reg k := by simp [h]

theorem State.setRegFlag_reg_of_ne {x k : Reg} (h : ¬ (k = x ∨ k = 15)) (b : Byte) (c : Bool) :
    (s.setRegFlag x b c).reg k = s.reg k := by
  simp [not_or.mp h]

theorem State.loadRegs_reg_of_le {bs : List Byte} {k : Reg} (h : bs.length ≤ k.val) : (s.loadRegs bs).reg k = s.reg k := by
  simp [List.getElem?_eq_none h]

/-- R24, the column "writes". -/
theorem executeNext_reg {k : Reg} (h : ¬ writesReg i k) : (executeNext s i).reg k = s.reg k := by
  cases i
  case loadImmediate | addImmediate | loadRegister | or | and | xor | loadRandom | loadDelay | draw =>
    exact State.setReg_reg_of_ne h _
  case addRegister | subRegisterXY | subRegisterYX | shiftRight | shiftLeft => exact State.setRegFlag_reg_of_ne h _ _
  case waitForKey x =>
    cases hl : s.lowestFallingEdge with
    | none => rw [executeNext_waitForKey_none hl]
    | some _ => rw [executeNext_waitForKey_some hl]; exact State.setReg_reg_of_ne h _
  case loadRegisters x =>
    have hk : x < k := not_le.mp h
    have hload := State.loadRegs_reg_of_le (s := s) (bs := s.mem.readBytes s.i.toNat (x.val + 1)) (by simpa using hk)
    simp only [executeNext, State.commit_reg, State.advanceI_reg, hload]
  all_goals rfl

/-! The registers: who reads them. A register that is not read keeps another value put into it before, or is overwritten. -/

/-- Two states that differ in no field but the registers, and read alike there, are equal. -/
theorem State.eq_of_reg (hrest : s = { t with v := s.v }) (hreg : ∀ k, s.reg k = t.reg k) : s = t := by
  rw [hrest, State.v_ext s t hreg]

theorem State.setReg_setReg_same (x : Reg) (b c : Byte) : (s.setReg x b).setReg x c = s.setReg x c :=
  State.eq_of_reg rfl fun j => by by_cases hj : j = x <;> simp [hj]

theorem State.setReg_commit (x : Reg) (b : Byte) (adv : Advance) :
    (s.setReg x b).commit adv = (s.commit adv).setReg x b := rfl

theorem State.setReg_advanceI (x k : Reg) (b : Byte) : (s.setReg k b).advanceI x = (s.advanceI x).setReg k b := rfl

theorem State.setReg_rnd (x : Reg) (b : Byte) : (s.setReg x b).rnd = s.rnd := rfl

theorem State.setReg_setFb (x : Reg) (b : Byte) (fb : Framebuffer) : (s.setReg x b).setFb fb = (s.setFb fb).setReg x b := rfl

theorem State.setReg_comm {x k : Reg} (h : k ≠ x) (b c : Byte) : (s.setReg k b).setReg x c = (s.setReg x c).setReg k b :=
  State.eq_of_reg rfl fun j => by by_cases hj : j = x <;> simp [hj, h.symm]

theorem State.setRegFlag_setReg_written {x k : Reg} (h : k = x ∨ k = 15) (b c : Byte) (f : Bool) :
    (s.setReg k b).setRegFlag x c f = s.setRegFlag x c f :=
  State.eq_of_reg rfl fun j => by
    by_cases hx : j = x
    · simp [hx]
    · by_cases hf : j = 15
      · simp [hf]
      · have hj : j ≠ k := by rintro rfl; exact h.elim hx hf
        simp [hj]

theorem State.setRegFlag_setReg_comm {x k : Reg} (h : ¬ (k = x ∨ k = 15)) (b c : Byte) (f : Bool) :
    (s.setReg k b).setRegFlag x c f = (s.setRegFlag x c f).setReg k b := by
  rw [State.setRegFlag, State.setReg_comm (not_or.mp h).1, State.setReg_comm (not_or.mp h).2]
  rfl

theorem State.loadRegs_setReg_written {bs : List Byte} {k : Reg} (h : k.val < bs.length) (b : Byte) :
    (s.setReg k b).loadRegs bs = s.loadRegs bs :=
  State.eq_of_reg (by simp [State.ext_iff]) fun j => by
    by_cases hj : j = k
    · subst hj; simp [List.getElem?_eq_getElem h]
    · simp [hj]

theorem State.loadRegs_setReg_comm {bs : List Byte} {k : Reg} (h : bs.length ≤ k.val) (b : Byte) :
    (s.setReg k b).loadRegs bs = (s.loadRegs bs).setReg k b :=
  State.eq_of_reg (by simp [State.ext_iff]) fun j => by
    by_cases hj : j = k
    · subst hj; simp [List.getElem?_eq_none h]
    · simp [hj]

theorem State.regsUpTo_setReg_of_lt {x k : Reg} (h : x < k) (b : Byte) : (s.setReg k b).regsUpTo x = s.regsUpTo x := by
  refine List.ext_getElem (by simp) fun j hj hj' => ?_
  rw [State.regsUpTo_getElem, State.regsUpTo_getElem]
  refine State.setReg_reg_of_ne (fun hk => ?_) b
  have hjk : j = k.val := congrArg Fin.val hk
  have hxk : x.val < k.val := h
  rw [State.regsUpTo_length] at hj'
  omega

section
variable {k : Reg} {b : Byte}

/-- A register that the instruction reads is none that it does not read. -/
theorem State.setReg_reg_of_unread {j : Reg} (h : ¬ readsReg i k) (hj : readsReg i j) : (s.setReg k b).reg j = s.reg j :=
  State.setReg_reg_of_ne (by rintro rfl; exact h hj) b

/-- The two checks that look at a register look at one that is read. -/
theorem executeError_setReg (h : ¬ readsReg i k) : executeError (s.setReg k b) i = executeError s i := by
  cases i
  case skipKeyPressed | skipKeyNotPressed => simp only [executeError, State.setReg_reg_of_unread h rfl]
  all_goals rfl

theorem State.stalls_iff {x : Reg} : s.stalls (.waitForKey x) ↔ s.lowestFallingEdge = none := by
  simp [State.stalls, State.lowestFallingEdge_eq_none, State.fallingEdge]

theorem not_stalls (h : ∀ x, i ≠ .waitForKey x) : ¬ s.stalls i := fun hs => hs.1.elim h

/-- A register neither read nor written keeps what is put into it; so does the target of an `FX0A` that stalls. -/
theorem executeNext_setReg_kept (hr : ¬ readsReg i k) (hw : ¬ writesReg i k ∨ s.stalls i) :
    executeNext (s.setReg k b) i = (executeNext s i).setReg k b := by
  cases i
  case skipEqualImmediate | skipNotEqualImmediate | skipKeyPressed | skipKeyNotPressed | setDelay | setSound | addIndex | loadFont
      | storeBCD =>
    simp only [executeNext, State.setReg_reg_of_unread hr rfl]
    rfl
  case skipEqualRegister | skipNotEqualRegister =>
    simp only [executeNext, State.setReg_reg_of_unread hr (.inl rfl), State.setReg_reg_of_unread hr (.inr rfl)]
    rfl
  case jumpAdd =>
    simp only [executeNext, State.jumpAddTarget, State.setReg_reg_of_unread hr rfl]
    rfl
  case storeRegisters =>
    simp only [executeNext, State.regsUpTo_setReg_of_lt (not_le.mp hr)]
    rfl
  case waitForKey x =>
    have hl : (s.setReg k b).lowestFallingEdge = s.lowestFallingEdge := rfl
    cases hs : s.lowestFallingEdge with
    | none => rw [executeNext_waitForKey_none hs, executeNext_waitForKey_none (hl.trans hs)]
    | some =>
      have hne : k ≠ x := hw.resolve_right fun h => by simp [State.stalls_iff, hs] at h
      rw [executeNext_waitForKey_some hs, executeNext_waitForKey_some (hl.trans hs), State.setReg_comm hne]
      rfl
  case loadImmediate | loadRandom | loadDelay =>
    have hw := hw.resolve_right (not_stalls nofun)
    simp only [executeNext, State.setReg_comm hw]
    rfl
  case addImmediate | loadRegister =>
    have hw := hw.resolve_right (not_stalls nofun)
    simp only [executeNext, State.setReg_reg_of_unread hr rfl, State.setReg_comm hw]
    rfl
  case or | and | xor =>
    have hw := hw.resolve_right (not_stalls nofun)
    simp only [executeNext, State.setReg_reg_of_unread hr (.inl rfl), State.setReg_reg_of_unread hr (.inr rfl),
      State.setReg_comm hw]
    rfl
  case addRegister | subRegisterXY | subRegisterYX =>
    have hw := hw.resolve_right (not_stalls nofun)
    simp only [executeNext, State.setReg_reg_of_unread hr (.inl rfl), State.setReg_reg_of_unread hr (.inr rfl),
      State.setRegFlag_setReg_comm hw]
    rfl
  case shiftRight | shiftLeft =>
    have hw := hw.resolve_right (not_stalls nofun)
    simp only [executeNext, State.setReg_reg_of_unread hr rfl, State.setRegFlag_setReg_comm hw]
    rfl
  case draw =>
    have hw := hw.resolve_right (not_stalls nofun)
    simp only [executeNext, State.setReg_reg_of_unread hr (.inl rfl), State.setReg_reg_of_unread hr (.inr rfl),
      State.setReg_setFb, State.setReg_comm hw]
    rfl
  case loadRegisters x =>
    have hk : x < k := not_le.mp (hw.resolve_right (not_stalls nofun))
    have hload := State.loadRegs_setReg_comm (s := s) (bs := s.mem.readBytes s.i.toNat (x.val + 1)) (by simpa using hk) b
    simp only [executeNext, State.setReg_mem, State.setReg_i, hload, State.setReg_advanceI, State.setReg_commit]
  all_goals rfl

/-- A register not read but written takes the same value whatever is put into it before. -/
theorem executeNext_setReg_written (hr : ¬ readsReg i k) (hw : writesReg i k) (hs : ¬ s.stalls i) :
    executeNext (s.setReg k b) i = executeNext s i := by
  cases i
  case loadImmediate | loadRandom | loadDelay =>
    cases hw
    simp only [executeNext, State.setReg_setReg_same, State.setReg_rnd, State.setReg_delay]
  case loadRegister =>
    cases hw
    simp only [executeNext, State.setReg_reg_of_unread hr rfl, State.setReg_setReg_same]
  case addImmediate => exact absurd hw hr
  case or | and | xor => exact absurd (.inl hw) hr
  case addRegister | subRegisterXY | subRegisterYX =>
    simp only [executeNext, State.setReg_reg_of_unread hr (.inl rfl), State.setReg_reg_of_unread hr (.inr rfl),
      State.setRegFlag_setReg_written hw]
  case shiftRight | shiftLeft =>
    simp only [executeNext, State.setReg_reg_of_unread hr rfl, State.setRegFlag_setReg_written hw]
  case draw =>
    cases hw
    simp only [executeNext, State.setReg_reg_of_unread hr (.inl rfl), State.setReg_reg_of_unread hr (.inr rfl),
      State.setReg_setFb, State.setReg_setReg_same]
    rfl
  case waitForKey x =>
    cases hw
    obtain ⟨j, hj⟩ := Option.ne_none_iff_exists'.mp (mt State.stalls_iff.mpr hs)
    rw [executeNext_waitForKey_some hj, executeNext_waitForKey_some (s := s.setReg k b) hj, State.setReg_setReg_same]
  case loadRegisters x =>
    have hk : k ≤ x := hw
    have hload := State.loadRegs_setReg_written (s := s) (bs := s.mem.readBytes s.i.toNat (x.val + 1))
      (by simpa [Nat.lt_succ_iff] using hk) b
    simp only [executeNext, State.setReg_mem, State.setReg_i, hload]
  all_goals exact hw.elim

end

/-! The pc (R103) -/

theorem zextAddr_toNat (nnn : Addr12) : (zextAddr nnn).toNat = nnn.toNat := by
  have := nnn.isLt
  rw [zextAddr, BitVec.toNat_setWidth]
  omega

theorem zextByte_toNat (b : Byte) : (zextByte b).toNat = b.toNat := by
  have := b.isLt
  rw [zextByte, BitVec.toNat_setWidth]
  omega

/-- `nnn + V0` never wraps (R125). -/
theorem State.jumpAddTarget_toNat (s : State) (nnn : Addr12) : (s.jumpAddTarget nnn).toNat = nnn.toNat + (s.reg 0).toNat := by
  have := nnn.isLt; have := (s.reg 0).isLt
  rw [State.jumpAddTarget, BitVec.toNat_add, zextAddr_toNat, zextByte_toNat]
  omega

/-- A skip adds 2 or 4 (R103). -/
theorem skipOutcome (c : Bool) (p : Word) :
    nextPc p (if c then .skip else .next) = p + 2#16 ∨ nextPc p (if c then .skip else .next) = p + 4#16 := by
  cases c
  · exact .inl rfl
  · exact .inr rfl

/-- Every pc outcome is one that R103 allows. -/
theorem pcOutcome_executeNext (h : executeError s i = none) : pcOutcome s i (executeNext s i).pc := by
  cases i
  case machineSubroutine => cases h
  case ret =>
    have hc : s.sp.val ≠ 0 := by simpa [executeError] using h
    obtain ⟨k, hk⟩ := s.sp_zero_or_top.resolve_left hc
    have hk' : s.sp.val - 1 = k.val := by omega
    refine ⟨k, hk.symm, ?_⟩
    simp [executeNext, hk']
  case jump nnn | call nnn => exact zextAddr_toNat nnn
  case jumpAdd nnn => exact s.jumpAddTarget_toNat nnn
  case skipEqualImmediate | skipNotEqualImmediate | skipEqualRegister | skipNotEqualRegister | skipKeyPressed | skipKeyNotPressed =>
    exact skipOutcome _ _
  case waitForKey =>
    cases hl : s.lowestFallingEdge with
    | none => rw [executeNext_waitForKey_none hl]; exact .inr rfl
    | some => rw [executeNext_waitForKey_some hl]; exact .inl rfl
  case loadRegisters => simp [pcOutcome, executeNext]
  all_goals rfl

end Sys2Proof.Machine

namespace Sys2Proof

open Machine

/-- Settles O19, by the register frame `executeNext_reg`. -/
theorem registersChangeOnlyAsTheTableSays : Obligations.RegistersChangeOnlyAsTheTableSays := by
  intro i s t k h hw
  obtain ⟨-, rfl⟩ := exec_eq_next.mp h
  exact executeNext_reg hw

/-- Settles O20: the unread register is overwritten, or it is kept. -/
theorem unreadRegistersHaveNoInfluence : Obligations.UnreadRegistersHaveNoInfluence := by
  intro i s k b hr
  have hError : executeError (s.setReg k b) i = executeError s i := executeError_setReg hr
  by_cases hw : writesReg i k ∧ ¬ s.stalls i
  · have ⟨hnext, hfault⟩ := exec_congr (s := s) (f := (·.setReg k b)) (g := id) hError (executeNext_setReg_written hr hw.1 hw.2)
    refine ⟨fun t ht => ⟨t, hnext t ht, rfl, fun _ _ => rfl, fun _ _ => rfl, fun hk => ?_⟩, hfault⟩
    exact absurd hw (not_and_or.mpr (hk.imp_right not_not_intro))
  · have hk : ¬ writesReg i k ∨ s.stalls i := (not_and_or.mp hw).imp_right not_not.mp
    have ⟨hnext, hfault⟩ := exec_congr (s := s) (f := (·.setReg k b)) (g := (·.setReg k b)) hError (executeNext_setReg_kept hr hk)
    refine ⟨fun t ht => ⟨_, hnext t ht, rfl, fun j hj => State.setReg_reg_of_ne hj b, fun h1 h2 => absurd ⟨h1, h2⟩ hw,
      fun _ => by simp⟩, hfault⟩

/-- Settles O21: the check reads no input, and the completion what the two sets agree in. -/
theorem inputsReachOnlyTheirInstructions : Obligations.InputsReachOnlyTheirInstructions := fun _ _ inp h =>
  exec_congr (f := (·.setInput inp)) (g := (·.setInput inp)) (executeError_setInput inp) (executeNext_setInput h)

/-- Settles O22, by the memory frame `executeNext_mem`. -/
theorem onlyStoresWriteMemory : Obligations.OnlyStoresWriteMemory := by
  intro i s t h hs a
  obtain ⟨-, rfl⟩ := exec_eq_next.mp h
  rw [executeNext_mem hs]

/-- Settles O23, by the screen frame `executeNext_fb`. -/
theorem onlyClearAndDrawWriteTheScreen : Obligations.OnlyClearAndDrawWriteTheScreen := by
  intro i s t h hd x y
  obtain ⟨-, rfl⟩ := exec_eq_next.mp h
  rw [executeNext_fb hd]

/-- Settles O24: neither half of `exec` reads the stack, and the completion keeps it. -/
theorem onlyCallAndReturnUseTheStack : Obligations.OnlyCallAndReturnUseTheStack := by
  intro i s st p h
  have ⟨hnext, hfault⟩ := exec_congr (s := s) (f := (·.setStack st p)) (g := (·.setStack st p))
    (executeError_setStack h st p) (executeNext_setStack h st p)
  refine ⟨fun t ht => ?_, hfault⟩
  obtain ⟨-, rfl⟩ := exec_eq_next.mp ht
  obtain ⟨hstack, hsp⟩ := executeNext_stack (s := s) h
  exact ⟨hstack, hsp, hnext _ ht⟩

/-- Settles O25: the check reads no timer, and the completion the delay timer in `FX07` only. -/
theorem timersChangeOnlyByTheirInstructions : Obligations.TimersChangeOnlyByTheirInstructions := by
  intro i s d u
  have hError := executeError_setTimers (i := i) (s := s) d u
  refine ⟨fun t ht => ?_, fun e he => exec_eq_fault.mpr (hError.trans (exec_eq_fault.mp he))⟩
  obtain ⟨hnone, rfl⟩ := exec_eq_next.mp ht
  refine ⟨executeNext_delay, executeNext_sound, fun hd hs hl => ?_, ?_, ?_, ?_⟩
  · exact exec_eq_next.mpr ⟨hError.trans hnone, executeNext_setTimers hd hs hl d u⟩
  all_goals
    rintro x rfl
    rfl

/-- Settles O26, by `pcOutcome_executeNext`. -/
theorem pcOutcomesAsTheTableSays : Obligations.PcOutcomesAsTheTableSays := by
  intro i s t h
  obtain ⟨hnone, rfl⟩ := exec_eq_next.mp h
  exact pcOutcome_executeNext hnone

end Sys2Proof

/-! The cycle and the host's transactions (spec/40_cycle.md sections 2 to 6, 60_exceptions.md R233, 70_reset_and_hazards.md R273): the
outcomes of a cycle in the order fetch, decode, execute, and what the host sees of them. -/

namespace Sys2Proof.Machine

variable {s t : State} {w : Word} {i : Instr} {e : Fault}

/-- The fetched word is the big-endian word at pc (R57). -/
theorem State.fetchWord_eq (hp : s.pc.toNat + 2 ≤ 4096)
    (hw : w.toNat = (s.mem.read s.pc.toNat).toNat * 256 + (s.mem.read (s.pc.toNat + 1)).toNat) : s.fetchWord = some w := by
  rw [State.fetchWord_inside hp, BitVec.eq_of_toNat_eq (hw.trans (wordOfBytes_toNat _ _).symm)]

/-- A cycle that cannot fetch fails before anything else (R233). -/
theorem runCycle_of_fetch_none (h : s.fetchWord = none) : runCycle s = .fault (.fetchOutOfBounds s.pc) := by
  simp [runCycle, h, raise]

/-- A cycle that fetches an illegal word fails with that word (R233). -/
theorem runCycle_of_decode_error {err : DecodeError} (hf : s.fetchWord = some w) (hd : decode w = .error err) :
    runCycle s = .fault (.unknownInstruction w) := by
  simp [runCycle, hf, hd, raise]

theorem runCycle_ne_refused (r : Refusal) : runCycle s ≠ .refused r := by
  cases hf : s.fetchWord with
  | none => simp [runCycle_of_fetch_none hf]
  | some w =>
    cases hd : decode w with
    | error => simp [runCycle_of_decode_error hf hd]
    | ok i => rw [runCycle_of_decode hf hd]; exact exec_ne_refused r

/-- A failed cycle fails on any inputs with the same error (R107): neither fetch, nor decode, nor a check of an instruction reads them. -/
theorem runCycle_setInput_fault (h : runCycle s = .fault e) (inp : CycleInput) : runCycle (s.setInput inp) = .fault e := by
  have hfetch := s.setInput_fetchWord inp
  cases hf : s.fetchWord with
  | none =>
    rw [runCycle_of_fetch_none hf] at h
    exact (runCycle_of_fetch_none (hfetch.trans hf)).trans h
  | some w =>
    cases hd : decode w with
    | error =>
      rw [runCycle_of_decode_error hf hd] at h
      rw [runCycle_of_decode_error (hfetch.trans hf) hd, h]
    | ok i =>
      rw [runCycle_of_decode hf hd] at h
      rw [runCycle_of_decode (hfetch.trans hf) hd]
      exact exec_eq_fault.mpr ((executeError_setInput inp).trans (exec_eq_fault.mp h))

/-- The host is answered Ok exactly by a success (R100). -/
theorem transact_eq_ok {x : Transaction} : transact x s = (t, .ok) ↔ perform x s = .next t := by
  unfold transact
  cases perform x s with
  | next => simp
  | fault => simp
  | refused => simp

/-- The host is answered an error exactly by a failure, and the state is as it was (R106). -/
theorem transact_eq_error {x : Transaction} : transact x s = (t, .error e) ↔ t = s ∧ perform x s = .fault e := by
  unfold transact
  cases perform x s with
  | next => simp
  | fault => simp [eq_comm]
  | refused => simp

/-- A pending transaction is the step. -/
theorem step_eq_perform {x : Transaction} {ts : List Transaction} (h : s.host = x :: ts) : step s = perform x (s.setHost ts) := by
  simp [step, nextTransaction, State.nextCall, h]

end Sys2Proof.Machine

namespace Sys2Proof

open Machine

/-- Settles O10: a tick always succeeds, and no cycle is refused. -/
theorem noStepIsRefused : Obligations.NoStepIsRefused := by
  intro s r
  obtain ⟨ts, d, h | ⟨inp, h⟩⟩ := step_eq s <;> rw [h]
  · nofun
  · exact runCycle_ne_refused r

/-- Settles O11: the host's state by `transact_eq_error`, the same error again by `runCycle_setInput_fault`. -/
theorem failedCycleChangesNothingAndRepeats : Obligations.FailedCycleChangesNothingAndRepeats := by
  intro s t inp inp' e h
  obtain ⟨rfl, hfault⟩ := transact_eq_error.mp h
  exact ⟨rfl, transact_fault (runCycle_setInput_fault hfault inp')⟩

/-- Settles O12: the step is the pending transaction, and `transact` is its outcome as the host sees it. -/
theorem stepIsTheHostsTransaction : Obligations.StepIsTheHostsTransaction := by
  intro s x ts h
  rw [step_eq_perform h]
  exact ⟨fun t => transact_eq_ok.symm, fun e => by simp [transact_eq_error]⟩

/-- Settles O6: the pending cycle fetches the word and runs it; with nothing pending `step_draw` is the statement. -/
theorem stepRunsTheDecodedInstruction : Obligations.StepRunsTheDecodedInstruction := by
  intro s w i hp hw hd
  refine ⟨fun inp ts h => ?_, step_draw⟩
  rw [step_cycle h]
  exact runCycle_of_decode (State.fetchWord_eq (s := { s with input := inp, host := ts }) hp hw) hd

/-- Settles O7: the fetch is the first check of a cycle and the decoder the second. -/
theorem fetchErrorThenDecodeError : Obligations.FetchErrorThenDecodeError := by
  intro s hs
  obtain ⟨inp, ts, d, h⟩ := hs.step_eq
  refine ⟨fun hp => (h s.input).trans ?_, fun w hp hw hd => (h s.input).trans ?_⟩
  · have hf := State.fetchWord_eq_none (s := { s with input := inp, host := ts, draws := d }) |>.mpr hp
    exact runCycle_of_fetch_none hf
  · have hf := State.fetchWord_eq (s := { s with input := inp, host := ts, draws := d }) hp hw
    exact runCycle_of_decode_error hf hd

/-- Settles O8: the step is `updateTimers`, which ticks both timers and writes nothing else. -/
theorem pendingTickStepsTheTimersOnly : Obligations.PendingTickStepsTheTimersOnly := by
  intro s ts h
  exact ⟨_, step_updateTimers h, rfl, updateTimers_delay_toNat _, updateTimers_sound_toNat _, fun _ => rfl⟩

/-- Settles O13: a cycle overwrites the inputs that stand in the state, and a tick carries them on. -/
theorem stepForgetsEarlierInputs : Obligations.StepForgetsEarlierInputs := by
  intro s inp
  constructor
  · intro hs
    obtain ⟨inp', ts, d, h⟩ := hs.step_eq
    exact (h inp).trans (h s.input).symm
  · intro hs
    obtain ⟨ts, d, h⟩ := step_of_not_cycleIsNext hs
    exact ⟨_, h s.input, h inp⟩

end Sys2Proof

/-! The invariants of a run (spec/20_memory.md sections 1, 2; 92_eei_decisions.md D4): a step is a tick, which writes neither memory, nor pc,
nor the stack, or one instruction that was fetched at pc + 2 ≤ 4096. -/

namespace Sys2Proof.Machine

variable {s t : State} {i : Instr}

/-- The two stores check their access before they write; every other instruction keeps memory. -/
theorem exec_keeps_memoryCanonical (hc : s.memoryCanonical) (h : exec i s = .next t) : t.memoryCanonical := by
  obtain ⟨hnone, rfl⟩ := exec_eq_next.mp h
  by_cases hs : storesMemory i
  · obtain ⟨x, rfl⟩ | ⟨x, rfl⟩ := hs
    · have hi : s.i.toNat + 3 ≤ 4096 := by simpa [executeError] using hnone
      exact Memory.wf_writeBytes hc hi
    · have hi : s.i.toNat + x.val + 1 ≤ 4096 := by simpa [executeError] using hnone
      exact Memory.wf_writeBytes hc (by rw [State.regsUpTo_length]; omega)
  · rw [State.memoryCanonical, executeNext_mem hs]
    exact hc

/-- A pc that was fetched at is far from the end of the 16 bits. -/
theorem fetched_pc_add_le {p : Word} (hp : p.toNat + 2 ≤ 4096) {k : Word} (hk : k.toNat ≤ 4) : (p + k).toNat ≤ 0x10FE := by
  rw [BitVec.toNat_add]
  omega

/-- No pc outcome of R103 exceeds 0xFFF + 0xFF = 0x10FE (D4). -/
theorem pcOutcome_le (hp : s.pc.toNat + 2 ≤ 4096) (hs : s.pcInRange) {p : Word} (h : pcOutcome s i p) : p.toNat ≤ 0x10FE := by
  cases i
  case machineSubroutine => exact h.elim
  case jump nnn | call nnn => have := nnn.isLt; exact h.trans_le (by omega)
  case jumpAdd nnn => have := nnn.isLt; have := (s.reg 0).isLt; exact h.trans_le (by omega)
  case ret =>
    obtain ⟨k, hk, rfl⟩ := h
    have := hs.2 k (by omega)
    rw [BitVec.toNat_add]
    simp only [BitVec.toNat_ofNat]
    omega
  case skipEqualImmediate | skipNotEqualImmediate | skipEqualRegister | skipNotEqualRegister | skipKeyPressed | skipKeyNotPressed =>
    obtain rfl | rfl := h
    · exact fetched_pc_add_le hp (by decide)
    · exact fetched_pc_add_le hp (by decide)
  case waitForKey =>
    obtain rfl | rfl := h
    · exact fetched_pc_add_le hp (by decide)
    · omega
  all_goals
    cases h
    exact fetched_pc_add_le hp (by decide)

/-- A call pushes the pc it was fetched at; a return leaves the entries and takes the top one out of use. -/
theorem exec_keeps_stackInRange (hp : s.pc.toNat + 2 ≤ 4096) (hs : s.pcInRange) (h : exec i s = .next t) (k : Fin 12)
    (hk : k.val < t.sp.val) : t.stack[k].toNat ≤ 0xFFE := by
  obtain ⟨hnone, rfl⟩ := exec_eq_next.mp h
  by_cases hu : usesStack i
  · obtain rfl | ⟨nnn, rfl⟩ := hu
    · have hk : k.val < s.sp.val - 1 := hk
      exact hs.2 k (by omega)
    · have hfull : s.sp.val ≠ 12 := by simpa [executeError] using hnone
      have hroom := s.sp_room_or_full.resolve_right hfull
      have hk : k.val < (s.sp.val + 1) % 13 := hk
      change (s.stack.setIfInBounds s.sp.val s.pc)[k.val].toNat ≤ 0xFFE
      rw [Vector.getElem_setIfInBounds k.isLt]
      split
      · omega
      · exact hs.2 k (by omega)
  · obtain ⟨hstack, hsp⟩ := executeNext_stack (s := s) hu
    rw [hsp] at hk
    rw [hstack]
    exact hs.2 k hk

theorem exec_keeps_pcInRange (hp : s.pc.toNat + 2 ≤ 4096) (hs : s.pcInRange) (h : exec i s = .next t) : t.pcInRange := by
  refine ⟨?_, exec_keeps_stackInRange hp hs h⟩
  obtain ⟨hnone, rfl⟩ := exec_eq_next.mp h
  exact pcOutcome_le hp hs (pcOutcome_executeNext hnone)

end Sys2Proof.Machine

namespace Sys2Proof

open Machine

/-- Settles O14: a tick keeps memory, an instruction its canonical form. -/
theorem stepKeepsMemoryCanonical : Obligations.StepKeepsMemoryCanonical := by
  intro s t hc h
  obtain ⟨ts, d, rfl | ⟨inp, i, hexec, -⟩⟩ := step_eq_next h
  · exact hc
  · exact exec_keeps_memoryCanonical (s := { s with input := inp, host := ts, draws := d }) hc hexec

/-- Settles O15: a tick keeps pc and the stack, and an instruction was fetched at pc + 2 ≤ 4096. -/
theorem stepKeepsPcInRange : Obligations.StepKeepsPcInRange := by
  intro s t hs h
  obtain ⟨ts, d, rfl | ⟨inp, i, hexec, hp⟩⟩ := step_eq_next h
  · exact hs
  · exact exec_keeps_pcInRange (s := { s with input := inp, host := ts, draws := d }) hp hs hexec

/-- Settles O16: at reset memory lists nothing and no stack entry is in use. -/
theorem resetMeetsTheInvariants : Obligations.ResetMeetsTheInvariants :=
  ⟨Memory.wf_reset, by decide, fun _ hk => absurd hk (Nat.not_lt_zero _)⟩

end Sys2Proof

/-! `construct` and the reset state (spec/70_reset_and_hazards.md R260 to R262, 20_memory.md R51, R56). -/

namespace Sys2Proof.Machine

/-- Past the font the reset contents are zero (R51). -/
theorem initialByte_of_le {a : Nat} (h : 80 ≤ a) : initialByte a = 0#8 :=
  if_neg (by simp only [fontBase_eq, fontSize_eq]; omega)

/-- The memory that `construct` builds (R260, R261). -/
def constructedMemory (font : Vector Byte 80) (program : List Byte) : Memory :=
  (State.reset.mem.writeBytes 0 font.toList).writeBytes 0x200 program

theorem construct_ok {font : Vector Byte 80} {program : List Byte} (h : program.length ≤ 3584) :
    State.construct font program = .ok (State.reset.setMem (constructedMemory font program)) :=
  if_neg (by simp only [maxProgram_eq]; omega)

theorem construct_error {font : Vector Byte 80} {program : List Byte} (h : program.length > 3584) :
    State.construct font program = .error (.programTooLarge program.length) := if_pos h

section
variable (font : Vector Byte 80) {program : List Byte}

theorem font_length : font.toList.length = 80 := by simp

/-- The font alone fits and is canonical. -/
theorem wf_font : (State.reset.mem.writeBytes 0 font.toList).wf = true :=
  Memory.wf_writeBytes Memory.wf_reset (by rw [font_length]; omega)

theorem constructedMemory_wf (h : program.length ≤ 3584) : (constructedMemory font program).wf = true :=
  Memory.wf_writeBytes (wf_font font) (by omega)

/-- Outside the program's bytes memory is as the font alone leaves it. -/
theorem constructedMemory_read_outside {a : Nat} (h : a < 0x200 ∨ 0x200 + program.length ≤ a) :
    (constructedMemory font program).read a = (State.reset.mem.writeBytes 0 font.toList).read a :=
  Memory.read_writeBytes_other h

theorem constructedMemory_read_font (k : Fin 80) : (constructedMemory font program).read k.val = font[k] := by
  have hk : k.val < font.toList.length := by rw [font_length]; exact k.isLt
  have hread := Memory.read_writeBytes_get Memory.wf_reset (a := 0) (by rw [font_length]; omega) hk
  rw [Nat.zero_add] at hread
  rw [constructedMemory_read_outside font (.inl (by omega)), hread]
  simp

theorem constructedMemory_read_program (h : program.length ≤ 3584) {k : Nat} (hk : k < program.length) :
    (constructedMemory font program).read (0x200 + k) = program[k] :=
  Memory.read_writeBytes_get (wf_font font) (by omega) hk

theorem constructedMemory_read_zero {a : Nat} (hfont : 80 ≤ a) (h : a < 0x200 ∨ 0x200 + program.length ≤ a) :
    (constructedMemory font program).read a = 0#8 := by
  rw [constructedMemory_read_outside font h, Memory.read_writeBytes_other (.inr (by rw [font_length]; omega))]
  exact initialByte_of_le hfont

end

/-- Writing the default font over the reset contents lists nothing: those are the bytes that stand there (R56). -/
theorem writeBytes_defaultFont : State.reset.mem.writeBytes 0 defaultFont = [] := by decide

end Sys2Proof.Machine

namespace Sys2Proof

open Machine

/-- Settles O18: both blocks that `construct` writes lie inside memory and do not overlap. -/
theorem constructLoadsFontAndProgram : Obligations.ConstructLoadsFontAndProgram := by
  intro font program
  refine ⟨fun h => ⟨_, construct_ok h, rfl, constructedMemory_wf font h, constructedMemory_read_font font,
    fun a h1 h2 => constructedMemory_read_zero font h1 (.inl h2), fun k hk => constructedMemory_read_program font h hk,
    fun a ha => constructedMemory_read_zero font (by omega) (.inr ha)⟩, construct_error⟩

/-- Settles O17: the fields by definition, memory because it lists nothing at reset. -/
theorem resetStateIsAsConstructed : Obligations.ResetStateIsAsConstructed := by
  refine ⟨rfl, fun x => ?reg, rfl, rfl, fun k => ?stack, rfl, rfl, pixel_clearScreen, fun a ha => ?zero, ?font, rfl, ?construct⟩
  case reg => simp [State.reg, State.reset]
  case stack => simp [State.reset]
  case zero => exact initialByte_of_le ha
  case font => decide
  case construct =>
    intro font hfont
    have hmem : constructedMemory font [] = State.reset.mem := by
      rw [constructedMemory, hfont, writeBytes_defaultFont]
      rfl
    rw [construct_ok (Nat.zero_le _), hmem]
    rfl

end Sys2Proof

/-! Any number of ticks (spec/60_exceptions.md R245, R246; 92_eei_decisions.md D26). -/

namespace Sys2Proof.Machine

/-- n ticks take n from each timer, floored at 0. -/
theorem iterate_updateTimers (s : State) (n : Nat) :
    (updateTimers^[n] s).delay.toNat = s.delay.toNat - n ∧ (updateTimers^[n] s).sound.toNat = s.sound.toNat - n := by
  induction n with
  | zero => exact ⟨rfl, rfl⟩
  | succ n ih =>
    obtain ⟨hd, hs⟩ := ih
    rw [Function.iterate_succ_apply', updateTimers_delay_toNat, updateTimers_sound_toNat, hd, hs]
    omega

/-- Pending ticks are as many steps, which change the two timers and leave the cycle behind them pending. -/
theorem reachesIn_ticks (n : Nat) {s : State} {inp : CycleInput} {ts : List Transaction}
    (h : s.host = ticksThenCycle n inp ts) :
    ∃ d e : Byte, d.toNat = s.delay.toNat - n ∧ e.toNat = s.sound.toNat - n ∧
      s.reachesIn n { s with delay := d, sound := e, host := .cycle inp :: ts } := by
  induction n generalizing s with
  | zero => exact ⟨s.delay, s.sound, rfl, rfl, by rw [State.reachesIn_zero, ← ticksThenCycle_zero, ← h]⟩
  | succ n ih =>
    obtain ⟨d, e, hd, he, hu⟩ := ih (s := updateTimers { s with host := ticksThenCycle n inp ts }) rfl
    have hd' : d.toNat = s.delay.toNat - 1 - n := by rw [hd, updateTimers_delay_toNat]
    have he' : e.toNat = s.sound.toNat - 1 - n := by rw [he, updateTimers_sound_toNat]
    exact ⟨d, e, by omega, by omega, _, step_updateTimers h, hu⟩

/-- The ticks of an empty list are drawn in the first of their steps. -/
theorem reachesIn_draw {s t : State} (h : s.host = []) {n : Nat}
    (ht : State.reachesIn { s with
      host := ticksThenCycle (Config.freeTicks s.draws) (freeInput s.draws) [], draws := s.draws + 1 } (n + 1) t) :
    s.reachesIn (n + 1) t := by
  rw [State.reachesIn_succ, step_draw h]
  exact ht

/-- A pending cycle on a state whose timers have ticked runs the word at pc, which no tick has touched. -/
theorem step_cycle_of_ticked {s : State} {w : Word} {i : Instr} (hp : s.pc.toNat + 2 ≤ 4096)
    (hw : w.toNat = (s.mem.read s.pc.toNat).toNat * 256 + (s.mem.read (s.pc.toNat + 1)).toNat) (hd : decode w = .ok i)
    (d e : Byte) (inp : CycleInput) (ts : List Transaction) :
    step { s with delay := d, sound := e, host := .cycle inp :: ts } =
      exec i { s with delay := d, sound := e, input := inp, host := ts } := by
  rw [step_cycle rfl]
  exact runCycle_of_decode
    (State.fetchWord_eq (s := { s with delay := d, sound := e, input := inp, host := ts }) hp hw) hd

end Sys2Proof.Machine

namespace Sys2Proof

open Machine

/-- Settles O54: the timers by induction on the ticks, the tone by its threshold 2. -/
theorem repeatedTicksAndTheTone : Obligations.RepeatedTicksAndTheTone := by
  intro s n
  obtain ⟨hd, hs⟩ := iterate_updateTimers s n
  refine ⟨hd, hs, ?_⟩
  rw [State.isSoundPlaying, decide_eq_true_iff, hs, soundThreshold_eq]
  omega

/-- Settles O55: the pending ticks by `reachesIn_ticks`; with nothing pending the same ticks are drawn first, and where none is drawn
the cycle is the step itself. -/
theorem anyNumberOfTicksThenTheCycle : Obligations.AnyNumberOfTicksThenTheCycle := by
  intro s w i hp hw hdec
  constructor
  · intro n inp ts h
    obtain ⟨d, e, hd, he, hu⟩ := reachesIn_ticks n h
    exact ⟨_, d, e, hu, hd, he, step_cycle_of_ticked hp hw hdec d e inp ts⟩
  · intro h
    have hrun : ∀ d e : Byte, step { s with delay := d, sound := e, host := [.cycle (freeInput s.draws)], draws := s.draws + 1 } =
        exec i { s with delay := d, sound := e, input := freeInput s.draws, draws := s.draws + 1 } := by
      intro d e
      rw [h]
      exact step_cycle_of_ticked (s := { s with draws := s.draws + 1 }) hp hw hdec d e (freeInput s.draws) []
    cases hn : Config.freeTicks s.draws with
    | zero =>
      have hdraw := step_draw h
      rw [hn] at hdraw
      exact ⟨s, s.delay, s.sound, rfl, rfl, rfl, hdraw.trans (hrun s.delay s.sound)⟩
    | succ n =>
      obtain ⟨d, e, hd, he, hu⟩ := reachesIn_ticks (n + 1) (s := { s with
        host := ticksThenCycle (n + 1) (freeInput s.draws) [], draws := s.draws + 1 }) rfl
      exact ⟨_, d, e, reachesIn_draw h (by rw [hn]; exact hu), hd, he, hrun d e⟩

end Sys2Proof

/-! Control transfer (spec/41_control_flow.md): jumps, the call stack and the skips. -/

namespace Sys2Proof.Machine

variable {s t : State}

/-- A skip on equality (R126, R128). -/
theorem skipIf_eq_spec (a b : Byte) (s : State) :
    ∃ t, skipIf (a == b) s = .next t ∧ s.onlyPc t ∧ t.pc = if a = b then s.pc + 4#16 else s.pc + 2#16 := by
  obtain ⟨t, ht, hframe, hpc⟩ := skipIf_spec (a == b) s
  exact ⟨t, ht, hframe, by simpa using hpc⟩

/-- A skip on inequality (R127, R129). -/
theorem skipIf_ne_spec (a b : Byte) (s : State) :
    ∃ t, skipIf (a != b) s = .next t ∧ s.onlyPc t ∧ t.pc = if a = b then s.pc + 2#16 else s.pc + 4#16 := by
  obtain ⟨t, ht, hframe, hpc⟩ := skipIf_spec (a != b) s
  exact ⟨t, ht, hframe, by simpa using hpc⟩

/-- `2NNN` with room: the new entry is the call's own address, every other entry stays (R124). -/
theorem exec_call_spec (h : s.sp.val < 12) (nnn : Addr12) :
    ∃ t, exec (.call nnn) s = .next t ∧ t.pc.toNat = nnn.toNat ∧ t.sp.val = s.sp.val + 1 ∧
      (∀ k : Fin 12, t.stack[k] = if k.val = s.sp.val then s.pc else s.stack[k]) ∧ s.onlyStackPc t := by
  refine ⟨_, execCall_some h nnn, zextAddr_toNat nnn, rfl, fun k => ?_, rfl, rfl, fun _ => rfl⟩
  simp [Vector.getElem_set, eq_comm]

/-- `00EE` with an entry in use (R122). -/
theorem exec_ret_spec (k : Fin 12) (hk : s.sp.val = k.val + 1) :
    ∃ t, exec .ret s = .next t ∧ t.pc = s.stack[k] + 2#16 ∧ t.sp.val = k.val ∧ t.stack = s.stack ∧ s.onlyStackPc t :=
  ⟨_, execRet_some k hk, rfl, rfl, rfl, rfl, rfl, fun _ => rfl⟩

end Sys2Proof.Machine

namespace Sys2Proof

open Machine

/-- Settles O28: the word by `decode_encode`, the jump by definition. -/
theorem jumpSetsPc : Obligations.JumpSetsPc := fun nnn _ =>
  ⟨decode_encode (i := .jump nnn) rfl, _, rfl, zextAddr_toNat nnn, rfl, rfl, fun _ => rfl⟩

/-- Settles O29: the sum is below 2^16. -/
theorem jumpAddAddsV0 : Obligations.JumpAddAddsV0 := fun nnn s =>
  ⟨_, rfl, s.jumpAddTarget_toNat nnn, rfl, rfl, fun _ => rfl⟩

/-- Settles O30, by the two outcomes of a push. -/
theorem callPushesItsOwnAddress : Obligations.CallPushesItsOwnAddress := fun nnn _ =>
  ⟨fun h => exec_call_spec h nnn, fun h => execCall_none h nnn⟩

/-- Settles O31, by the two outcomes of a pop. -/
theorem returnPopsTheCallAddress : Obligations.ReturnPopsTheCallAddress := fun _ =>
  ⟨exec_ret_spec, execRet_none⟩

/-- Settles O32: the entry that the call pushes is the top one still when the return pops it. -/
theorem callThenReturnGoesOnAfterTheCall : Obligations.CallThenReturnGoesOnAfterTheCall := by
  intro nnn s t u i hcall hi hexec
  obtain ⟨hnone, -⟩ := exec_eq_next.mp hcall
  have hfull : s.sp.val ≠ 12 := by simpa [executeError] using hnone
  have hroom : s.sp.val < 12 := s.sp_room_or_full.resolve_right hfull
  obtain ⟨t', ht', -, hsp, hentries, -⟩ := exec_call_spec hroom nnn
  obtain rfl : t' = t := Host.Outcome.next.inj (ht'.symm.trans hcall)
  obtain ⟨-, rfl⟩ := exec_eq_next.mp hexec
  obtain ⟨hstack, hsp'⟩ := executeNext_stack (s := t') hi
  obtain ⟨r, hr, hpc, hrsp, hrstack, -⟩ := exec_ret_spec (s := executeNext t' i) ⟨s.sp.val, hroom⟩ (by rw [hsp', hsp])
  refine ⟨r, hr, ?_, Fin.ext hrsp, fun k hk => ?_⟩
  · rw [hpc, hstack, hentries, if_pos rfl]
  · rw [hrstack, hstack, hentries, if_neg (by omega)]

/-- Settles O33: two skips on equality, two on inequality. -/
theorem conditionalSkips : Obligations.ConditionalSkips := fun _ _ _ s =>
  ⟨skipIf_eq_spec _ _ s, skipIf_ne_spec _ _ s, skipIf_eq_spec _ _ s, skipIf_ne_spec _ _ s⟩

end Sys2Proof

/-! Register loads and the ALU (spec/42_alu.md): the frame of a register write, with and without a flag, and the arithmetic of each
value and flag. -/

namespace Sys2Proof.Machine

/-- A plain register write whose value has a property. -/
theorem writeReg_spec_of (P : Byte → Prop) {b : Byte} (hb : P b) (x : Reg) (s : State) :
    ∃ t, writeReg x b s = .next t ∧ s.onlyRegPc t x ∧ t.pc = s.pc + 2#16 ∧ P (t.reg x) := by
  obtain ⟨t, ht, hframe, hpc, hreg⟩ := writeReg_spec x b s
  exact ⟨t, ht, hframe, hpc, hreg ▸ hb⟩

/-- A register write with a flag whose value and flag have a property. -/
theorem writeRegFlag_spec_of (P : Byte → Prop) (n : Nat) {b : Byte} {c : Bool} (hb : P b) (hc : (flagByte c).toNat = n)
    (x : Reg) (s : State) :
    ∃ t, writeRegFlag x b c s = .next t ∧ s.onlyRegFlagPc t x ∧ t.pc = s.pc + 2#16 ∧ (x ≠ 15 → P (t.reg x)) ∧
      (t.reg 15).toNat = n := by
  obtain ⟨t, ht, hframe, hpc, hreg, hflag⟩ := writeRegFlag_spec x b c s
  exact ⟨t, ht, hframe, hpc, fun hx => hreg hx ▸ hb, hflag ▸ hc⟩

theorem flagByte_carryOut (a b : Byte) :
    (flagByte (carryOut a b)).toNat = if a.toNat + b.toNat > 255 then 1 else 0 := by
  simp [carryOut]

theorem flagByte_notBorrow (a b : Byte) : (flagByte (notBorrow a b)).toNat = if a.toNat ≥ b.toNat then 1 else 0 := by
  simp [notBorrow]

theorem flagByte_lsbOut (b : Byte) : (flagByte (lsbOut b)).toNat = b.toNat % 2 := by
  rw [flagByte_toNat, lsbOut, BitVec.getLsbD, Nat.testBit_zero]
  split <;> simp_all

theorem flagByte_msbOut (b : Byte) : (flagByte (msbOut b)).toNat = b.toNat / 128 := by
  have := b.isLt
  rw [flagByte_toNat, msbOut, BitVec.getLsbD, Nat.testBit_eq_decide_div_mod_eq]
  split <;> simp_all <;> omega

theorem sub_toNat (a b : Byte) : (a - b).toNat = (256 + a.toNat - b.toNat) % 256 := by
  have := b.isLt
  rw [BitVec.toNat_sub]
  omega

theorem shiftRight_one_toNat (b : Byte) : (b >>> 1).toNat = b.toNat / 2 := by
  rw [BitVec.toNat_ushiftRight, Nat.shiftRight_eq_div_pow]

theorem shiftLeft_one_toNat (b : Byte) : (b <<< 1).toNat = b.toNat * 2 % 256 := by
  rw [BitVec.toNat_shiftLeft, Nat.shiftLeft_eq]

end Sys2Proof.Machine

namespace Sys2Proof

open Machine

/-- Settles O34: eight plain register writes, each with its value. -/
theorem loadsAndLogicWriteVX : Obligations.LoadsAndLogicWriteVX := by
  intro x y nn s
  refine ⟨writeReg_spec x _ s, ?add, writeReg_spec x _ s, ?or, ?and, ?xor, ?random, writeReg_spec x _ s⟩
  case add =>
    exact writeReg_spec_of (fun b => b.toNat = ((s.reg x).toNat + nn.toNat) % 256) (BitVec.toNat_add _ _) x s
  case or =>
    exact writeReg_spec_of (fun b => ∀ k, b.getLsbD k = ((s.reg x).getLsbD k || (s.reg y).getLsbD k))
      (fun _ => BitVec.getLsbD_or) x s
  case and =>
    exact writeReg_spec_of (fun b => ∀ k, b.getLsbD k = ((s.reg x).getLsbD k && (s.reg y).getLsbD k))
      (fun _ => BitVec.getLsbD_and) x s
  case xor =>
    exact writeReg_spec_of (fun b => ∀ k, b.getLsbD k = ((s.reg x).getLsbD k ^^ (s.reg y).getLsbD k))
      (fun _ => BitVec.getLsbD_xor) x s
  case random =>
    exact writeReg_spec_of (fun b => ∀ k, b.getLsbD k = (s.input.rnd.getLsbD k && nn.getLsbD k))
      (fun _ => BitVec.getLsbD_and) x s

/-- Settles O35, by the value and the carry of the sum. -/
theorem addRegisterSetsCarry : Obligations.AddRegisterSetsCarry := fun x y s =>
  writeRegFlag_spec_of (fun b => b.toNat = ((s.reg x).toNat + (s.reg y).toNat) % 256) _ (BitVec.toNat_add _ _)
    (flagByte_carryOut _ _) x s

/-- Settles O36, by the value and the not-borrow of each difference. -/
theorem subtractionsSetNotBorrow : Obligations.SubtractionsSetNotBorrow := fun x y s =>
  ⟨writeRegFlag_spec_of (fun b => b.toNat = (256 + (s.reg x).toNat - (s.reg y).toNat) % 256) _ (sub_toNat _ _)
      (flagByte_notBorrow _ _) x s,
    writeRegFlag_spec_of (fun b => b.toNat = (256 + (s.reg y).toNat - (s.reg x).toNat) % 256) _ (sub_toNat _ _)
      (flagByte_notBorrow _ _) x s⟩

/-- Settles O37, by the value of each shift and the bit that it puts out. -/
theorem shiftsTakeVYAndSetTheBitOut : Obligations.ShiftsTakeVYAndSetTheBitOut := fun x y s =>
  ⟨writeRegFlag_spec_of (fun b => b.toNat = (s.reg y).toNat / 2) _ (shiftRight_one_toNat _) (flagByte_lsbOut _) x s,
    writeRegFlag_spec_of (fun b => b.toNat = (s.reg y).toNat * 2 % 256) _ (shiftLeft_one_toNat _) (flagByte_msbOut _) x s⟩

end Sys2Proof

/-! The index register, loads and stores (spec/43_index_memory.md, 20_memory.md R61). -/

namespace Sys2Proof.Machine

variable {s t u : State} {x : Reg}

theorem fontAddress_toNat (b : Byte) : (fontAddress b).toNat = 5 * b.toNat := by
  have := b.isLt
  simp only [fontAddress, fontBase_eq, fontGlyphBytes_eq, BitVec.toNat_ofNat]
  omega

/-- A block store at I leaves every address but the effective ones alone. -/
theorem State.read_writeBytes_of_ne {bs : List Byte} {a : Nat} (h : ∀ k, k < bs.length → a ≠ s.effectiveAddress k) :
    (s.mem.writeBytes s.i.toNat bs).read a = s.mem.read a := by
  refine Memory.read_writeBytes_other ?_
  by_contra hc
  have hne : a ≠ s.i.toNat + (a - s.i.toNat) := h (a - s.i.toNat) (by omega)
  omega

/-- I after a block transfer inside memory (R176, R177). -/
theorem State.advanceI_toNat (h : s.i.toNat + x.val + 1 ≤ 4096) :
    (s.i + BitVec.ofNat 16 (x.val + 1)).toNat = s.i.toNat + x.val + 1 := by
  have := reg_lt x
  rw [BitVec.toNat_add, BitVec.toNat_ofNat]
  change (s.i.toNat + (x.val + 1) % 65536) % 65536 = s.i.toNat + x.val + 1
  omega

theorem State.byteAfterBCD_digits (s : State) (x : Reg) :
    s.byteAfterBCD x (s.effectiveAddress 0) = BitVec.ofNat 8 ((s.reg x).toNat / 100) ∧
    s.byteAfterBCD x (s.effectiveAddress 1) = BitVec.ofNat 8 ((s.reg x).toNat / 10 % 10) ∧
    s.byteAfterBCD x (s.effectiveAddress 2) = BitVec.ofNat 8 ((s.reg x).toNat % 10) := by
  simp [State.byteAfterBCD, State.effectiveAddress]

theorem State.byteAfterRegisters_block (s : State) {k : Reg} (hk : k ≤ x) :
    s.byteAfterRegisters x (s.effectiveAddress k.val) = s.reg k := by
  have hk : k.val ≤ x.val := hk
  rw [State.byteAfterRegisters, if_pos (by simp only [State.effectiveAddress]; omega)]
  congr 1
  apply Fin.ext
  simp only [State.effectiveAddress, Nat.add_zero, Nat.add_sub_cancel_left, Fin.ofNat]
  exact Nat.mod_eq_of_lt (reg_lt k)

/-- `FX33` inside memory: its frame and the three digits (R175). -/
theorem exec_storeBCD_spec (h : s.i.toNat + 3 ≤ 4096) :
    ∃ t, exec (.storeBCD x) s = .next t ∧ s.onlyStoredPc t 3 ∧ t.pc = s.pc + 2#16 ∧
      (s.memoryCanonical →
        (s.reg x).toNat = 100 * (t.mem.read (s.effectiveAddress 0)).toNat +
          10 * (t.mem.read (s.effectiveAddress 1)).toNat + (t.mem.read (s.effectiveAddress 2)).toNat ∧
        (t.mem.read (s.effectiveAddress 1)).toNat ≤ 9 ∧ (t.mem.read (s.effectiveAddress 2)).toNat ≤ 9) := by
  refine ⟨_, execStoreBCD_inside h x, ⟨rfl, fun a ha => State.read_writeBytes_of_ne ha⟩, rfl, fun hc => ?_⟩
  have hread := execStoreBCD_read hc (execStoreBCD_inside h x)
  obtain ⟨h0, h1, h2⟩ := s.byteAfterBCD_digits x
  have := (s.reg x).isLt
  rw [hread, hread, hread, h0, h1, h2]
  simp only [BitVec.toNat_ofNat]
  omega

/-- `FX55` inside memory: its frame and the block (R176). -/
theorem exec_storeRegisters_spec (h : s.i.toNat + x.val + 1 ≤ 4096) :
    ∃ t, exec (.storeRegisters x) s = .next t ∧ s.onlyStoredIPc t (x.val + 1) ∧
      t.pc = s.pc + 2#16 ∧ t.i.toNat = s.i.toNat + x.val + 1 ∧
      (s.memoryCanonical → ∀ k : Reg, k ≤ x → t.mem.read (s.effectiveAddress k.val) = s.reg k) := by
  refine ⟨_, execStoreRegisters_inside h, ⟨rfl, fun a ha => State.read_writeBytes_of_ne ?_⟩, rfl, State.advanceI_toNat h,
    fun hc k hk => ?_⟩
  · simpa using ha
  · rw [execStoreRegisters_read hc (execStoreRegisters_inside h), State.byteAfterRegisters_block s hk]

/-- `FX65` inside memory: its frame and the registers (R177). -/
theorem exec_loadRegisters_spec (h : s.i.toNat + x.val + 1 ≤ 4096) :
    ∃ t, exec (.loadRegisters x) s = .next t ∧ s.onlyRegsUpToIPc t x ∧
      t.pc = s.pc + 2#16 ∧ t.i.toNat = s.i.toNat + x.val + 1 ∧
      ∀ k : Reg, k ≤ x → t.reg k = s.mem.read (s.effectiveAddress k.val) := by
  refine ⟨_, execLoadRegisters_inside h, ⟨?frame, fun k hk => ?above, ?memory⟩, ?pc, ?index, fun k hk => ?block⟩
  case frame => simp [State.ext_iff]
  case above =>
    have hk : x.val < k.val := hk
    rw [State.commit_reg, State.advanceI_reg, State.loadRegs_readBytes_reg, if_neg (by omega)]
  case memory => simp [State.sameMemory]
  case pc => simp
  case index =>
    rw [State.commit_i, State.advanceI_i, State.loadRegs_i]
    exact State.advanceI_toNat h
  case block =>
    have hk : k.val ≤ x.val := hk
    rw [State.commit_reg, State.advanceI_reg, State.loadRegs_readBytes_reg, if_pos (by omega)]
    rfl

/-- A pending cycle runs the word of the two bytes at pc (R57, R61). -/
theorem step_of_bytes {hi lo : Byte} {i : Instr} {inp : CycleInput} {ts : List Transaction} (hhost : u.host = .cycle inp :: ts)
    (hp : u.pc.toNat + 2 ≤ 4096) (hhi : u.mem.read u.pc.toNat = hi) (hlo : u.mem.read (u.pc.toNat + 1) = lo)
    (hd : decode (wordOfBytes hi lo) = .ok i) : step u = exec i { u with input := inp, host := ts } := by
  subst hhi hlo
  rw [step_cycle hhost]
  exact runCycle_of_decode (State.fetchWord_inside (s := { u with input := inp, host := ts }) hp) hd

end Sys2Proof.Machine

namespace Sys2Proof

open Machine

/-- Settles O38: three writes of I, each with its value. -/
theorem indexInstructionsSetI : Obligations.IndexInstructionsSetI := by
  intro nnn x s
  refine ⟨⟨_, rfl, ⟨rfl, rfl, fun _ => rfl⟩, rfl, zextAddr_toNat nnn⟩, ⟨_, rfl, ⟨rfl, rfl, fun _ => rfl⟩, rfl, ?add⟩,
    ⟨_, rfl, ⟨rfl, rfl, fun _ => rfl⟩, rfl, fontAddress_toNat _⟩⟩
  case add =>
    rw [State.commit_i, State.setI_i, BitVec.toNat_add, zextByte_toNat]
    rfl

/-- Settles O39, on both sides of the end of memory. -/
theorem storeBCDWritesThreeDigits : Obligations.StoreBCDWritesThreeDigits := fun x _ =>
  ⟨exec_storeBCD_spec, fun h => execStoreBCD_outside h x⟩

/-- Settles O40, on both sides of the end of memory. -/
theorem storeRegistersWritesTheBlock : Obligations.StoreRegistersWritesTheBlock := fun _ _ =>
  ⟨exec_storeRegisters_spec, execStoreRegisters_outside⟩

/-- Settles O41, on both sides of the end of memory. -/
theorem loadRegistersReadsTheBlock : Obligations.LoadRegistersReadsTheBlock := fun _ _ =>
  ⟨exec_loadRegisters_spec, execLoadRegisters_outside⟩

/-- Settles O42: the load reads the block that the store wrote, and advances the same I by the same amount. -/
theorem loadAfterStoreRestoresTheRegisters : Obligations.LoadAfterStoreRestoresTheRegisters := by
  intro x s t v hc hstore
  obtain ⟨hnone, -⟩ := exec_eq_next.mp hstore
  have hi : s.i.toNat + x.val + 1 ≤ 4096 := by simpa [executeError] using hnone
  obtain ⟨t', ht', -, -, hti, hblock⟩ := exec_storeRegisters_spec hi
  obtain rfl : t' = t := Host.Outcome.next.inj (ht'.symm.trans hstore)
  obtain ⟨r, hr, ⟨-, habove, -⟩, -, hri, hregs⟩ := exec_loadRegisters_spec (s := { t' with v := v, i := s.i }) hi
  exact ⟨r, hr, BitVec.eq_of_toNat_eq (hri.trans hti.symm), fun k hk => (hregs k hk).trans (hblock hc k hk), habove⟩

/-- Settles O43: every byte of memory after a store is known, and the fetch reads two of them. -/
theorem storedBytesAreFetchedNext : Obligations.StoredBytesAreFetchedNext := by
  intro x s t u inp ts hc hmem hhost hp
  constructor
  · intro hstore i hd
    have hread := fun a => hmem ▸ execStoreBCD_read hc hstore a
    exact step_of_bytes hhost hp (hread _) (hread _) hd
  · intro hstore i hd
    have hread := fun a => hmem ▸ execStoreRegisters_read hc hstore a
    exact step_of_bytes hhost hp (hread _) (hread _) hd

end Sys2Proof

/-! The display (spec/44_display.md R192 to R199, R206). -/

namespace Sys2Proof.Machine

variable {s : State} {x y : Reg} {n : Nibble}

theorem flagByte_eq_one_or_zero (c : Bool) : flagByte c = 1#8 ∨ flagByte c = 0#8 := by
  cases c
  · exact .inr rfl
  · exact .inl rfl

theorem flagByte_eq_one {c : Bool} : flagByte c = 1#8 ↔ c = true := by
  cases c <;> decide

/-- The sprite that DXYN draws: what `drawSprite` makes of the screen, with the collision beside it (R199). -/
def State.drawn (s : State) (x y : Reg) (n : Nibble) : Framebuffer × Bool :=
  drawSprite s.fb (s.reg x) (s.reg y) (s.mem.readBytes s.i.toNat n.toNat)

/-- The pixel is outside the rectangle that the n rows of the sprite cover from the wrapped anchor on (R193). -/
def outsideSprite (s : State) (x y : Reg) (n : Nibble) (px py : Nat) : Prop :=
  px < (s.reg x).toNat % 64 ∨ (s.reg x).toNat % 64 + 8 ≤ px ∨
    py < (s.reg y).toNat % 32 ∨ (s.reg y).toNat % 32 + n.toNat ≤ py

/-- Inside the rectangle the sprite bit is the pixel's bit of its row byte. -/
theorem spriteBit_inside {r c : Nat} (hr : r < n.toNat) (hc : c < 8) :
    spriteBit s x y n ((s.reg x).toNat % 64 + c) ((s.reg y).toNat % 32 + r) = (s.mem.read (s.i.toNat + r)).getLsbD (7 - c) := by
  simp [spriteBit, State.effectiveAddress, hr, hc]

/-- Outside the rectangle the sprite has no bit. -/
theorem spriteBit_outside {px py : Nat} (h : outsideSprite s x y n px py) : spriteBit s x y n px py = false := by
  unfold outsideSprite at h
  rw [spriteBit, decide_eq_false (by omega), Bool.false_and]

/-- Every pixel is outside the sprite's rectangle, or the anchor plus a row and a column of the sprite. -/
theorem outsideSprite_or_inside (s : State) (x y : Reg) (n : Nibble) (px py : Nat) : outsideSprite s x y n px py ∨
    ∃ r c, r < n.toNat ∧ c < 8 ∧ px = (s.reg x).toNat % 64 + c ∧ py = (s.reg y).toNat % 32 + r := by
  by_cases h : outsideSprite s x y n px py
  · exact .inl h
  · unfold outsideSprite at h
    exact .inr ⟨py - (s.reg y).toNat % 32, px - (s.reg x).toNat % 64, by omega, by omega, by omega, by omega⟩

/-- Every pixel of the screen takes the XOR with the sprite bit over it (R195). -/
theorem pixel_drawn {px py : Nat} (hx : px < 64) (hy : py < 32) :
    pixel (s.drawn x y n).1 px py = (pixel s.fb px py ^^ spriteBit s x y n px py) := by
  obtain hout | ⟨r, c, hr, hc, rfl, rfl⟩ := outsideSprite_or_inside s x y n px py
  · rw [spriteBit_outside hout, State.drawn, pixel_drawSprite_outside (by simpa [outsideSprite] using hout), Bool.xor_false]
  · rw [spriteBit_inside hr hc, State.drawn, pixel_drawSprite_inside (by simpa using hr) hc hx hy, Memory.getElem_readBytes]

/-- The collision: a sprite bit 1 over a pixel that was on (R195). -/
theorem collision_drawn : (s.drawn x y n).2 = true ↔
    ∃ px py, px < 64 ∧ py < 32 ∧ pixel s.fb px py = true ∧ spriteBit s x y n px py = true := by
  rw [State.drawn, collision_drawSprite]
  constructor
  · rintro ⟨r, c, hr, hc, hx, hy, hon, hbit⟩
    rw [Memory.getElem_readBytes] at hbit
    exact ⟨_, _, hx, hy, hon, (spriteBit_inside (by simpa using hr) hc).trans hbit⟩
  · rintro ⟨px, py, hx, hy, hon, hbit⟩
    obtain hout | ⟨r, c, hr, hc, rfl, rfl⟩ := outsideSprite_or_inside s x y n px py
    · rw [spriteBit_outside hout] at hbit
      cases hbit
    · rw [spriteBit_inside hr hc] at hbit
      exact ⟨r, c, by simpa using hr, hc, hx, hy, hon, by rw [Memory.getElem_readBytes]; exact hbit⟩

/-- Everything DXYN does inside memory (R199). -/
theorem exec_draw_spec (h : s.i.toNat + n.toNat ≤ 4096) : ∃ t, exec (.draw x y n) s = .next t ∧
    s.onlyScreenFlagPc t ∧ t.pc = s.pc + 2#16 ∧ t.fb = (s.drawn x y n).1 ∧ t.reg 15 = flagByte (s.drawn x y n).2 :=
  ⟨_, execDraw_inside h x y, ⟨rfl, fun _ hk => by simp [hk], rfl, fun _ => rfl⟩, rfl, rfl, by simp [State.drawn]⟩

end Sys2Proof.Machine

namespace Sys2Proof

open Machine

/-- Settles O46, by the pixels and the collision of the drawn sprite. -/
theorem drawXorsTheClippedSprite : Obligations.DrawXorsTheClippedSprite := by
  intro x y n s h
  obtain ⟨t, ht, hframe, hpc, hfb, hflag⟩ := exec_draw_spec h
  refine ⟨t, ht, hframe, hpc, fun px py hx hy => ?_, ?_, ?_⟩
  · rw [hfb, pixel_drawn hx hy]
  · rw [hflag]
    exact flagByte_eq_one_or_zero _
  · rw [hflag, flagByte_eq_one, collision_drawn]

/-- Settles O47: the first draw leaves the anchor, I and memory, so the second has the same sprite bits and each pixel takes the XOR
with its bit twice. -/
theorem drawingTwiceRestoresTheScreen : Obligations.DrawingTwiceRestoresTheScreen := by
  intro x y n s t hx hy hdraw
  obtain ⟨hnone, -⟩ := exec_eq_next.mp hdraw
  have hi : s.i.toNat + n.toNat ≤ 4096 := by simpa [executeError] using hnone
  obtain ⟨t', ht', ⟨hrest, hregs, hmem, -⟩, -, hfb, -⟩ := exec_draw_spec (x := x) (y := y) hi
  obtain rfl : t' = t := Host.Outcome.next.inj (ht'.symm.trans hdraw)
  have hindex : t'.i = s.i := by rw [hrest]
  have hbits : ∀ px py, spriteBit t' x y n px py = spriteBit s x y n px py := by
    intro px py
    simp only [spriteBit, State.effectiveAddress, hregs x hx, hregs y hy, hmem, hindex]
  have hpixels : ∀ px py, px < 64 → py < 32 → pixel t'.fb px py = (pixel s.fb px py ^^ spriteBit s x y n px py) := by
    intro px py hpx hpy
    rw [hfb, pixel_drawn hpx hpy]
  obtain ⟨u, hu, -, -, hufb, huflag⟩ := exec_draw_spec (s := t') (x := x) (y := y) (by rw [hindex]; exact hi)
  refine ⟨u, hu, screen_ext fun px py hpx hpy => ?_, ?_⟩
  · rw [hufb, pixel_drawn hpx hpy, hbits, hpixels px py hpx hpy, Bool.xor_assoc, Bool.xor_self, Bool.xor_false]
  · rw [huflag, flagByte_eq_one, collision_drawn]
    refine exists_congr fun px => exists_congr fun py => and_congr_right fun hpx => and_congr_right fun hpy => ?_
    rw [hbits, hpixels px py hpx hpy]
    cases pixel s.fb px py <;> simp

/-- Settles O49: `setPixel` is `putPixel` inside its bounds. -/
theorem setPixelSetsOnePixel : Obligations.SetPixelSetsOnePixel := by
  intro fb x y b
  refine ⟨fun hx hy => ⟨_, if_pos ⟨hx, hy⟩, pixel_putPixel hx hy b⟩, fun h => if_neg ?_⟩
  simp only [screenW_eq, screenH_eq]
  omega

end Sys2Proof

/-! Keys and timers (spec/45_keys_timers.md). -/

namespace Sys2Proof

open Machine

/-- Settles O50: on a key the two skips are opposite, off the pad both fail. -/
theorem keySkipsReadTheCurrentKeys : Obligations.KeySkipsReadTheCurrentKeys := by
  intro x s
  refine ⟨fun k hk => ⟨?pressed, ?notPressed⟩, execSkipKey_outOfRange⟩
  case pressed =>
    obtain ⟨t, ht, hframe, hpc⟩ := skipIf_spec (s.keyDown k) s
    exact ⟨t, (execSkipKeyPressed_key hk).trans ht, hframe, hpc⟩
  case notPressed =>
    obtain ⟨t, ht, hframe, hpc⟩ := skipIf_spec (!s.keyDown k) s
    refine ⟨t, (execSkipKeyNotPressed_key hk).trans ht, hframe, hpc.trans ?_⟩
    change _ = if s.keyDown k = true then s.pc + 2#16 else s.pc + 4#16
    cases s.keyDown k <;> rfl

/-- Settles O51: the completion of `FX0A` on the lowest falling edge, or on none. -/
theorem waitForKeyTakesTheLowestFallingEdge : Obligations.WaitForKeyTakesTheLowestFallingEdge := by
  intro x s
  have hexec : exec (.waitForKey x) s = .next (executeNext s (.waitForKey x)) := execWaitForKey_eq x s
  constructor
  · intro h
    rw [hexec, executeNext_waitForKey_none (State.lowestFallingEdge_eq_none.mpr fun k => ?_)]
    simpa [State.fallingEdge] using h k
  · intro k hp hc hlow
    have hk : s.lowestFallingEdge = some k := by
      refine State.lowestFallingEdge_eq_some.mpr ⟨?_, fun j hj => ?_⟩
      · simpa [State.fallingEdge] using ⟨hp, hc⟩
      · simpa [State.fallingEdge] using hlow j hj
    obtain ⟨t, ht, hframe, hpc, hreg⟩ := writeReg_spec x (BitVec.ofNat 8 k.val) s
    refine ⟨t, ?_, hframe, hpc, ?_⟩
    · rw [hexec, executeNext_waitForKey_some hk]
      exact ht
    · have := key_lt k
      rw [hreg, BitVec.toNat_ofNat]
      omega

/-- Settles O52: each timer instruction is one write. -/
theorem timerInstructionsSetTheTimers : Obligations.TimerInstructionsSetTheTimers := fun _ _ =>
  ⟨⟨_, rfl, ⟨rfl, rfl, fun _ => rfl⟩, rfl, rfl⟩, ⟨_, rfl, ⟨rfl, rfl, fun _ => rfl⟩, rfl, rfl⟩⟩

end Sys2Proof
